-- ==== Sys2Proof/Word.lean ====
section
/-! DEFINITION. The word types of the CORE whose width is no field of `Cfg`: one abbreviation per width
(10_state.md R20, R32, 20_memory.md R63, 30_encoding.md R91). Bit 0 is the least significant bit of every one of them
(R10). A register or port whose width R8 names (CNT_W, FREQ_W, RESP_W, MULT_W, ACC_W, WIN_W, ELAPSED_W) is a natural
number, as in the record of 10_state.md section 7, and is taken modulo 2^width where it is sampled or written (R11). -/

namespace Sys2Proof

/-- 7 bits: DUTY, ONTIME, O_DUTY, O_ONTIME. R20, R63. -/
abbrev Percent := BitVec 7

/-- An IEEE 754 binary32 datum, as its bit pattern: a PIDState register of this hardware. R31, R32. -/
abbrev Binary32 := BitVec 32

/-- An IEEE 754 binary64 datum, as its bit pattern. R171, R172. -/
abbrev Binary64 := BitVec 64

/-- The packed input record of one iteration, IW. R91. -/
abbrev IterationWord := BitVec 88

end Sys2Proof
end

