-- ==== Sys2Proof/Syntax.lean ====
section
/-! DEFINITION. The whole syntax: the input record, the four modes, the decode words' formats, the sequencer's
slots, and `Instr`, one constructor per operation of 30_encoding.md R80 (spec/opcode_table.json). -/

namespace Sys2Proof

/-- The input record `In` of one iteration: the nine input ports (20_memory.md R61). A port whose width is a field of
`Cfg` is a number here; SAMPLE takes it at its width. -/
structure In where
  /-- CNT, the free-running hardware counter. -/
  cnt : Nat
  /-- TACH_IN, the fan's tachometer sensor. -/
  tachIn : Bool
  /-- QUAD_A, rotary input, phase A. -/
  quadA : Bool
  /-- QUAD_B, rotary input, phase B. -/
  quadB : Bool
  /-- SEL, the debounced mode selector. -/
  sel : BitVec 4
  /-- PWM_FREQ. -/
  pwmFreq : Nat
  /-- RESP, the quadrature step. -/
  resp : Nat
  /-- RAMP_MULT, the ramp multiplier. -/
  rampMult : Nat
  /-- ALT_INFO, passed through to the display. -/
  altInfo : Bool
  deriving DecidableEq, Repr, Inhabited

/-- The values of register MODE; all four 2-bit patterns are legal (10_state.md R26, R84). -/
inductive Mode where
  | off
  | ramp
  | closedLoop
  | openLoop
  deriving DecidableEq, Repr

/-- The six formats of 30_encoding.md R81. -/
inductive Format where
  | pin
  | inputs
  | sel
  | mode
  | gate
  | fixed
  deriving DecidableEq, Repr

/-- Where a decode word is read: the reset pin, the packed inputs, or one position of the sequence of
45_iteration.md R220. The words of the table do not carry their format; the position supplies it (R81, R87). -/
inductive Slot where
  | pin
  | iteration
  | sample
  | select
  | phase
  | dutySource
  | desired
  | measured
  | onTimeSource
  | pwm
  | gate
  | out
  deriving DecidableEq, Repr

/-- A decode word at its slot. No word is wider than the 88 bits of IW; a narrower one stands in the low bits. -/
structure Encoded where
  slot : Slot
  word : BitVec 88
  deriving DecidableEq, Repr

/-- The 21 operations of R80. An operation that several words select keeps, as an operand, the bits of its word
that the selection leaves open: `quad` bit 0 of MODE, `direct` bit 1 of MODE, `selUnrec` the SEL word, `tach` the
GATE word, `iter` the nine port fields of IW. -/
inductive Instr where
  /-- RESET, pin RST = 1 (R280). -/
  | reset
  /-- ITER, one iteration over the sampled inputs (R220). -/
  | iter (inp : In)
  /-- SAMPLE (R221). -/
  | sample
  /-- PHASE (R101). -/
  | phase
  /-- DESIRED (R185). -/
  | desired
  /-- MEASURED (R130). -/
  | measured
  /-- PWM (R105). -/
  | pwm
  /-- OUT (R232). -/
  | out
  /-- SEL_NONE, SEL = 0000 (R201). -/
  | selNone
  /-- SEL_OFF, SEL = 0001 (R202). -/
  | selOff
  /-- SEL_RAMP, SEL = 0010 (R203). -/
  | selRamp
  /-- SEL_UNREC, any SEL word with two or more bits set (R207). -/
  | selUnrec (w : BitVec 4)
  /-- SEL_CLOSED, SEL = 0100 (R204). -/
  | selClosed
  /-- SEL_OPEN, SEL = 1000 (R206). -/
  | selOpen
  /-- SRC_OFF, MODE = 00 (R223). -/
  | srcOff
  /-- RAMP, MODE = 01 (R150). -/
  | ramp
  /-- PID, MODE = 10 (R170). -/
  | pid
  /-- QUAD, MODE = 1x (R140). -/
  | quad (bit0 : Bool)
  /-- DIRECT, MODE = x1 (R224). -/
  | direct (bit1 : Bool)
  /-- TACH_SKIP, GATE = 00 (R129). -/
  | tachSkip
  /-- TACH, any other GATE word (R120, R86). -/
  | tach (g : BitVec 2)
  deriving DecidableEq, Repr

/-- The names of spec/opcode_table.json, in the order of `Instr`. -/
inductive Mnemonic where
  | RESET | ITER | SAMPLE | PHASE | DESIRED | MEASURED | PWM | OUT
  | SEL_NONE | SEL_OFF | SEL_RAMP | SEL_UNREC | SEL_CLOSED | SEL_OPEN
  | SRC_OFF | RAMP | PID | QUAD | DIRECT | TACH_SKIP | TACH
  deriving DecidableEq, Repr

/-- The table's name of an operation. -/
def Instr.mnemonic : Instr → Mnemonic
  | .reset => .RESET
  | .iter _ => .ITER
  | .sample => .SAMPLE
  | .phase => .PHASE
  | .desired => .DESIRED
  | .measured => .MEASURED
  | .pwm => .PWM
  | .out => .OUT
  | .selNone => .SEL_NONE
  | .selOff => .SEL_OFF
  | .selRamp => .SEL_RAMP
  | .selUnrec _ => .SEL_UNREC
  | .selClosed => .SEL_CLOSED
  | .selOpen => .SEL_OPEN
  | .srcOff => .SRC_OFF
  | .ramp => .RAMP
  | .pid => .PID
  | .quad _ => .QUAD
  | .direct _ => .DIRECT
  | .tachSkip => .TACH_SKIP
  | .tach _ => .TACH

end Sys2Proof
end

