-- ==== Sys2Proof/Config.lean ====
section
/-! DEFINITION. What an instance of the CORE fixes: the configuration record `Cfg` (00_scope.md R8, R9), and the free
values: the two OPEN parameters of R8 and what the platform presents at the input ports when a run has been given no
stimulus, and right after RESET (60_exceptions.md R258, R262). -/

namespace Sys2Proof

/-- The instances of NUM that the spec names (43_pid.md R171, R184): the number format of PIDState and of the control
law. Each fixes the primitives, the two literals and the gains KP, KI, KD, which R172 rounds to it; Machine/Num.lean
gives them. Assumption 7. -/
inductive NumKind where
  | binary32
  | binary64
  | exact
  deriving DecidableEq, Repr

/-- The configuration of an instance (R8), field by field in the order of R8's table. KP, KI and KD come with NUM,
which has each of them rounded once (R172). It is plain data and rides in `State`, where no operation writes it
(20_memory.md R72): the host's `step` takes nothing but a state. Assumption 6. -/
structure Cfg where
  /-- CLOCK_FREQ, counter ticks per second. -/
  clockFreq : Nat
  /-- CNT_W, width of the hardware counter (U1, D3). -/
  cntW : Nat
  /-- MAX_RPS, the calibration constant of MEASURED; OPEN in every source. -/
  maxRps : Nat
  /-- NUM, the number format of PIDState and of the PID arithmetic, with KP, KI and KD. -/
  num : NumKind
  /-- PID_RESET_COMPUTES, whether the call that consumes the PID reset also runs the law (R173, C2). -/
  pidResetComputes : Bool
  /-- RAMP_UNIT, calls of RAMP per unit step per unit of multiplier. -/
  rampUnit : Nat
  /-- WINDOWS_PER_SEC, tachometer windows per second of counter time. -/
  windowsPerSec : Nat
  /-- PHASE_STEPS, number of phase values. -/
  phaseSteps : Nat
  /-- DUTY_MAX, top of the DutyCycle and OnTime range. -/
  dutyMax : Nat
  /-- SPEED_MAX, top of the DesiredSpeed and MeasuredSpeed range. -/
  speedMax : Nat
  /-- FREQ_W, width of the PWM_FREQ port. -/
  freqW : Nat
  /-- RESP_W, width of the RESP port. -/
  respW : Nat
  /-- MULT_W, width of the RAMP_MULT port. -/
  multW : Nat
  /-- ACC_W, width of T.ACC and of RPS. -/
  accW : Nat
  /-- WIN_W, width of T.WIN. -/
  winW : Nat
  /-- ELAPSED_W, width of RAMP.ELAPSED. -/
  elapsedW : Nat
  /-- ITER_RATE, iterations per second; OPEN, and no rule reads it (R8, R305). -/
  iterRate : Nat
  deriving DecidableEq, Repr

/-- The five fields that the rules write out as numbers (R89 (c)) have R8's values. A machine with another value is
one no rule speaks of (R101, R121, R130, R144, R152 say 100, 2, 50 and 1000). DEDUCED, assumption 6. -/
def Cfg.literal (c : Cfg) : Bool :=
  decide (c.rampUnit = 1000) && decide (c.windowsPerSec = 2) && decide (c.phaseSteps = 100) &&
    decide (c.dutyMax = 100) && decide (c.speedMax = 50)

/-- The constraints every rule assumes of a configuration (R9), and the values the rules write out. -/
def Cfg.wf (c : Cfg) : Bool :=
  decide (2 ≤ c.clockFreq) && decide (1 ≤ c.maxRps) && decide (c.clockFreq < 2 ^ c.cntW) &&
    decide (c.clockFreq < 2 ^ c.freqW) && c.literal

namespace Config

/-- Free value. MAX_RPS of this hardware is `openMaxRps + 1`: no source gives it, R9 asks only that it is at
least 1, and every value from 1 up is some value of this constant. Assumption 5. -/
opaque openMaxRps : Nat

/-- Free value. ITER_RATE of this hardware (R8, D25); no rule reads it. Assumption 5. -/
opaque openIterRate : Nat

/-- Free value. The level of pin RST at the `n`-th step for which no stimulus was given. Assumption 1. -/
opaque freeRst : Nat → Bool

/-- Free value. What the nine input ports present at the `n`-th step for which no stimulus was given: counter, pins,
selector and parameters may have any value (R258, R262, V1, V2). Assumption 1. -/
opaque freeInputs : Nat → In

/-- Free value. What the nine input ports present right after RESET: the counter's value at reset is not specified
and is taken as an input, not as 0, and the pins are whatever the world holds them at (R258, R283, V1, V2).
Assumption 3. -/
opaque inputsAtReset : In

/-- The configuration of this hardware: the values of R8, MAX_RPS and ITER_RATE left open. -/
def hardware : Cfg where
  clockFreq := 50000000
  cntW := 32
  maxRps := openMaxRps + 1
  num := .binary32
  pidResetComputes := false
  rampUnit := 1000
  windowsPerSec := 2
  phaseSteps := 100
  dutyMax := 100
  speedMax := 50
  freqW := 32
  respW := 8
  multW := 8
  accW := 32
  winW := 32
  elapsedW := 32
  iterRate := openIterRate

end Config

end Sys2Proof
end

