-- ==== Sys2Proof/WellFormed.lean ====
section
/-! DEFINITION. Which terms of `Instr` are instructions of the table: the operand of SEL_UNREC is one of the 11
SEL words that are neither "no event" nor one-hot (30_encoding.md R82), the operand of TACH is a GATE word other
than 00 (R86), and the operand of ITER fits the fields of the iteration word (R91). Every other term is well-formed. -/

namespace Sys2Proof

/-- The SEL words of R82 that select an operation other than SEL_UNREC. -/
def selRecognised (w : BitVec 4) : Bool :=
  w == 0b0000#4 || w == 0b0001#4 || w == 0b0010#4 || w == 0b0100#4 || w == 0b1000#4

/-- The inputs fit the fields of the 88-bit iteration word (R91). -/
def iwFits (i : In) : Bool :=
  decide (i.cnt < 2 ^ 32) && decide (i.pwmFreq < 2 ^ 32) && decide (i.resp < 2 ^ 8) && decide (i.rampMult < 2 ^ 8)

/-- The check. -/
def Instr.wf : Instr → Bool
  | .selUnrec w => !selRecognised w
  | .tach g => g != 0b00#2
  | .reset => true
  | .iter i => iwFits i
  | .sample => true
  | .phase => true
  | .desired => true
  | .measured => true
  | .pwm => true
  | .out => true
  | .selNone => true
  | .selOff => true
  | .selRamp => true
  | .selClosed => true
  | .selOpen => true
  | .srcOff => true
  | .ramp => true
  | .pid => true
  | .quad _ => true
  | .direct _ => true
  | .tachSkip => true

end Sys2Proof
end

