-- ==== Sys2Proof/Decode.lean ====
section
/-! DEFINITION. The decode words of 30_encoding.md: the decoder (total on every word at every slot, rejecting by
name), then the encoder written from the same tables, then the machine-readable table itself (R94) and the host's
view of the decoder. -/

namespace Sys2Proof

/-- Why a word at a slot is no operation. -/
inductive DecodeError where
  /-- The word has a bit set above its format's width (R81). -/
  | wordTooWide
  /-- RST = 0: no RESET in this step (R88). -/
  | noReset
  /-- MODE = 00 at the duty-cycle source's slot: Off has no duty-cycle source (R85, R222). -/
  | noDutySource
  deriving DecidableEq, Repr

/-- The format of the word read at a slot (R81). -/
def slotFormat : Slot → Format
  | .pin => .pin
  | .iteration => .inputs
  | .select => .sel
  | .dutySource => .mode
  | .onTimeSource => .mode
  | .gate => .gate
  | .sample => .fixed
  | .phase => .fixed
  | .desired => .fixed
  | .measured => .fixed
  | .pwm => .fixed
  | .out => .fixed

/-- Bits of a format's word (R81). -/
def formatWidth : Format → Nat
  | .pin => 1
  | .inputs => 88
  | .sel => 4
  | .mode => 2
  | .gate => 2
  | .fixed => 0

/-- MODE's encoding (R84). -/
def modeBits : Mode → BitVec 2
  | .off => 0b00#2
  | .ramp => 0b01#2
  | .closedLoop => 0b10#2
  | .openLoop => 0b11#2

/-- The fields of the iteration word (R91). -/
def unpackIw (w : IterationWord) : In where
  cnt := (w.extractLsb' 0 32).toNat
  tachIn := w.getLsbD 32
  quadA := w.getLsbD 33
  quadB := w.getLsbD 34
  sel := w.extractLsb' 35 4
  pwmFreq := (w.extractLsb' 39 32).toNat
  resp := (w.extractLsb' 71 8).toNat
  rampMult := (w.extractLsb' 79 8).toNat
  altInfo := w.getLsbD 87

/-- The inputs as SAMPLE takes them: each port at its width (R61, R68, R11). -/
def sampleIn (c : Cfg) (i : In) : In :=
  { i with
    cnt := i.cnt % 2 ^ c.cntW
    pwmFreq := i.pwmFreq % 2 ^ c.freqW
    resp := i.resp % 2 ^ c.respW
    rampMult := i.rampMult % 2 ^ c.multW }

/-- SEL format (R82). -/
def decodeSel (w : BitVec 4) : Instr :=
  if w = 0b0000#4 then .selNone
  else if w = 0b0001#4 then .selOff
  else if w = 0b0010#4 then .selRamp
  else if w = 0b0100#4 then .selClosed
  else if w = 0b1000#4 then .selOpen
  else .selUnrec w

/-- MODE format at the duty-cycle source's slot (R85): 01 RAMP, 1x QUAD, 00 none. -/
def decodeDutySource (w : BitVec 2) : Option Instr :=
  if w = 0b00#2 then none
  else if w = 0b01#2 then some .ramp
  else some (.quad (w.getLsbD 0))

/-- MODE format at the on-time source's slot (R85): 00 SRC_OFF, x1 DIRECT, 10 PID. -/
def decodeOnTimeSource (w : BitVec 2) : Instr :=
  if w = 0b00#2 then .srcOff
  else if w = 0b10#2 then .pid
  else .direct (w.getLsbD 1)

/-- GATE format (R86): 00 TACH_SKIP, every other word TACH. -/
def decodeGate (w : BitVec 2) : Instr :=
  if w = 0b00#2 then .tachSkip else .tach w

/-- A word that fits its format, at its slot. -/
def decodeAt (slot : Slot) (w : BitVec 88) : Except DecodeError Instr :=
  match slot with
  | .pin => if w.getLsbD 0 then .ok .reset else .error .noReset
  | .iteration => .ok (.iter (unpackIw w))
  | .sample => .ok .sample
  | .select => .ok (decodeSel (w.extractLsb' 0 4))
  | .phase => .ok .phase
  | .dutySource =>
    match decodeDutySource (w.extractLsb' 0 2) with
    | some i => .ok i
    | none => .error .noDutySource
  | .desired => .ok .desired
  | .measured => .ok .measured
  | .onTimeSource => .ok (decodeOnTimeSource (w.extractLsb' 0 2))
  | .pwm => .ok .pwm
  | .gate => .ok (decodeGate (w.extractLsb' 0 2))
  | .out => .ok .out

/-- The decoder: total on every word at every slot. -/
def decode (e : Encoded) : Except DecodeError Instr :=
  if e.word.toNat < 2 ^ formatWidth (slotFormat e.slot) then decodeAt e.slot e.word else .error .wordTooWide

/-! ### The encoder -/

/-- A bit as a number. -/
def bitNat (b : Bool) : Nat := if b then 1 else 0

/-- The iteration word of an input record (R91), field by field from bit 0 up. -/
def packIw (i : In) : IterationWord :=
  BitVec.ofNat 88
    (i.cnt
      + bitNat i.tachIn * 2 ^ 32
      + bitNat i.quadA * 2 ^ 33
      + bitNat i.quadB * 2 ^ 34
      + i.sel.toNat * 2 ^ 35
      + i.pwmFreq * 2 ^ 39
      + i.resp * 2 ^ 71
      + i.rampMult * 2 ^ 79
      + bitNat i.altInfo * 2 ^ 87)

/-- A narrow word in the low bits. -/
def lowWord (slot : Slot) (v : Nat) : Encoded := { slot := slot, word := BitVec.ofNat 88 v }

/-- The slot and word of an operation (R82, R85, R86, R87, R88, R91). -/
def encode : Instr → Encoded
  | .reset => lowWord .pin 1
  | .iter i => { slot := .iteration, word := packIw i }
  | .sample => lowWord .sample 0
  | .phase => lowWord .phase 0
  | .desired => lowWord .desired 0
  | .measured => lowWord .measured 0
  | .pwm => lowWord .pwm 0
  | .out => lowWord .out 0
  | .selNone => lowWord .select 0b0000
  | .selOff => lowWord .select 0b0001
  | .selRamp => lowWord .select 0b0010
  | .selUnrec w => lowWord .select w.toNat
  | .selClosed => lowWord .select 0b0100
  | .selOpen => lowWord .select 0b1000
  | .srcOff => lowWord .onTimeSource 0b00
  | .ramp => lowWord .dutySource 0b01
  | .pid => lowWord .onTimeSource 0b10
  | .quad b => lowWord .dutySource (0b10 + bitNat b)
  | .direct b => lowWord .onTimeSource (0b01 + 2 * bitNat b)
  | .tachSkip => lowWord .gate 0b00
  | .tach g => lowWord .gate g.toNat

/-! ### The table -/

/-- One row of spec/opcode_table.json: a word of format `format` selects the row when `word AND mask = pattern`
(R94). -/
structure OpcodeRow where
  mnemonic : Mnemonic
  format : Format
  mask : Nat
  pattern : Nat
  deriving DecidableEq, Repr

/-- The rows of formats PIN, IN and FIXED, in the table's order. -/
def fixedRows : List OpcodeRow :=
  [⟨.RESET, .pin, 1, 1⟩, ⟨.ITER, .inputs, 0, 0⟩, ⟨.SAMPLE, .fixed, 0, 0⟩, ⟨.PHASE, .fixed, 0, 0⟩,
   ⟨.DESIRED, .fixed, 0, 0⟩, ⟨.MEASURED, .fixed, 0, 0⟩, ⟨.PWM, .fixed, 0, 0⟩, ⟨.OUT, .fixed, 0, 0⟩]

/-- The rows of format SEL. -/
def selRows : List OpcodeRow :=
  [⟨.SEL_NONE, .sel, 0b1111, 0b0000⟩, ⟨.SEL_OFF, .sel, 0b1111, 0b0001⟩, ⟨.SEL_RAMP, .sel, 0b1111, 0b0010⟩,
   ⟨.SEL_UNREC, .sel, 0b1111, 0b0011⟩, ⟨.SEL_CLOSED, .sel, 0b1111, 0b0100⟩, ⟨.SEL_UNREC, .sel, 0b1111, 0b0101⟩,
   ⟨.SEL_UNREC, .sel, 0b1111, 0b0110⟩, ⟨.SEL_UNREC, .sel, 0b1111, 0b0111⟩, ⟨.SEL_OPEN, .sel, 0b1111, 0b1000⟩,
   ⟨.SEL_UNREC, .sel, 0b1111, 0b1001⟩, ⟨.SEL_UNREC, .sel, 0b1111, 0b1010⟩, ⟨.SEL_UNREC, .sel, 0b1111, 0b1011⟩,
   ⟨.SEL_UNREC, .sel, 0b1111, 0b1100⟩, ⟨.SEL_UNREC, .sel, 0b1111, 0b1101⟩, ⟨.SEL_UNREC, .sel, 0b1111, 0b1110⟩,
   ⟨.SEL_UNREC, .sel, 0b1111, 0b1111⟩]

/-- The rows of formats MODE and GATE. -/
def modeGateRows : List OpcodeRow :=
  [⟨.SRC_OFF, .mode, 0b11, 0b00⟩, ⟨.RAMP, .mode, 0b11, 0b01⟩, ⟨.PID, .mode, 0b11, 0b10⟩,
   ⟨.QUAD, .mode, 0b10, 0b10⟩, ⟨.DIRECT, .mode, 0b01, 0b01⟩,
   ⟨.TACH_SKIP, .gate, 0b11, 0b00⟩, ⟨.TACH, .gate, 0b11, 0b01⟩, ⟨.TACH, .gate, 0b11, 0b10⟩,
   ⟨.TACH, .gate, 0b11, 0b11⟩]

/-- The 33 rows of the table. -/
def opcodeTable : List OpcodeRow := fixedRows ++ selRows ++ modeGateRows

/-- The operations a word of a format selects, by the table alone (R94). -/
def rowsSelectedBy (f : Format) (w : Nat) : List Mnemonic :=
  (opcodeTable.filter fun r => r.format = f && (w &&& r.mask) == r.pattern).map (·.mnemonic)

/-! ### The host's view -/

/-- Which slot a table word of `nbits` bits (in whole bytes) is read at. The table's words do not carry their
format: an 88-bit word is IW, an empty word is the first FIXED operation, and a word of one byte is read as the SEL
word, the only word of that size that a port of the CORE carries. Assumption 9. -/
def tableSlot (nbits : Nat) : Slot :=
  if nbits = 88 then .iteration else if nbits = 0 then .sample else .select

/-- A table word as the decoder takes it; bits above bit 87 are dropped. -/
def tableWord (nbits w : Nat) : Encoded := { slot := tableSlot nbits, word := BitVec.ofNat 88 w }

/-- The instruction the decoder reads from a table word. -/
def decodeTableWord (nbits w : Nat) : Option Instr :=
  match decode (tableWord nbits w) with
  | .ok i => some i
  | .error _ => none

end Sys2Proof
end

