-- ==== Sys2Proof/Machine/Num.lean ====
section
/-! DEFINITION. NUM, the number format of PIDState and of the control law: the record of primitives of 43_pid.md
R171, its binary32 instance (the one this hardware has, D21), the binary64 and exact-rational instances the
same rule and R184 name, and PIDState, whose registers are data of the instance the configuration names. IEEE 754 itself is general knowledge, not the source's (R171). Assumptions 7, 8. -/

namespace Sys2Proof

/-- The primitives of R171 over a carrier `α`, with the two literals and the three gains of R172. `floor` is `none`
where `num_floor` is undefined (R181). -/
structure Num (α : Type) where
  /-- `int_to_num`. -/
  ofInt : Int → α
  /-- `num_add`. -/
  add : α → α → α
  /-- `num_sub`. -/
  sub : α → α → α
  /-- `num_mul`. -/
  mul : α → α → α
  /-- `num_lt`. -/
  lt : α → α → Bool
  /-- `num_floor`. -/
  floor : α → Option Int
  /-- The literal 100. -/
  hundred : α
  /-- The literal +0. -/
  zero : α
  /-- KP. -/
  kp : α
  /-- KI. -/
  ki : α
  /-- KD. -/
  kd : α

/-! ### IEEE 754 binary formats

A finite datum is an integer number of *units*, the format's smallest positive value: 2^-149 in binary32,
2^-1074 in binary64. Sums are exact in units and products in squared units, so every operation is one exact
integer followed by one rounding. -/

/-- A binary interchange format: widths of the exponent and fraction fields. -/
structure FloatFormat where
  expBits : Nat
  fracBits : Nat
  deriving DecidableEq, Repr

/-- binary32: 1 sign, 8 exponent and 23 fraction bits (R171). -/
def binary32Format : FloatFormat := { expBits := 8, fracBits := 23 }

/-- binary64. -/
def binary64Format : FloatFormat := { expBits := 11, fracBits := 52 }

/-- log2 of the number of units in 1.0: bias + fracBits - 1, with bias `2^(expBits-1) - 1`. -/
def unitShift (F : FloatFormat) : Nat := 2 ^ (F.expBits - 1) + F.fracBits - 2

/-- What a pattern denotes; a finite datum keeps its sign, so that -0 and +0 differ. -/
inductive FloatVal where
  | nan
  | inf (neg : Bool)
  | fin (neg : Bool) (mag : Nat)
  deriving DecidableEq, Repr

/-- The datum of a pattern: all-ones exponent is an infinity or a NaN, zero exponent is a zero or a subnormal. -/
def floatVal (F : FloatFormat) (b : Nat) : FloatVal :=
  let neg := decide (b / 2 ^ (F.expBits + F.fracBits) % 2 = 1)
  let e := b / 2 ^ F.fracBits % 2 ^ F.expBits
  let f := b % 2 ^ F.fracBits
  if e = 2 ^ F.expBits - 1 then (if f = 0 then .inf neg else .nan)
  else if e = 0 then .fin neg f
  else .fin neg ((2 ^ F.fracBits + f) * 2 ^ (e - 1))

/-- The sign bit's weight in a pattern. -/
def signPart (F : FloatFormat) (neg : Bool) : Nat := if neg then 2 ^ (F.expBits + F.fracBits) else 0

/-- Pattern of an infinity. -/
def infPattern (F : FloatFormat) (neg : Bool) : Nat :=
  signPart F neg + (2 ^ F.expBits - 1) * 2 ^ F.fracBits

/-- The quiet NaN with an empty payload; the spec names no NaN pattern. Assumption 8. -/
def nanPattern (F : FloatFormat) : Nat :=
  (2 ^ F.expBits - 1) * 2 ^ F.fracBits + 2 ^ (F.fracBits - 1)

/-- Pattern of a representable magnitude, in units; a magnitude past the largest finite datum is an infinity. -/
def packMag (F : FloatFormat) (neg : Bool) (mag : Nat) : Nat :=
  if mag < 2 ^ F.fracBits then signPart F neg + mag
  else
    let e := mag.log2 - F.fracBits + 1
    if 2 ^ F.expBits - 1 ≤ e then infPattern F neg
    else signPart F neg + e * 2 ^ F.fracBits + (mag / 2 ^ (e - 1) - 2 ^ F.fracBits)

/-- `m / D` rounded to the nearest integer, ties to the even one. -/
def roundHalfEven (m D : Nat) : Nat :=
  if D < 2 * (m % D) ∨ (2 * (m % D) = D ∧ m / D % 2 = 1) then m / D + 1 else m / D

/-- How many low bits of `m` go when `m * 2^-k` units are rounded: so many that at most `fracBits + 1` bits and no fraction of a
unit remain. -/
def dropBits (F : FloatFormat) (m k : Nat) : Nat := max k (m.log2 - F.fracBits)

/-- `m * 2^-k` units rounded once to a representable magnitude, nearest, ties to even. -/
def roundMag (F : FloatFormat) (m k : Nat) : Nat :=
  roundHalfEven m (2 ^ dropBits F m k) * 2 ^ (dropBits F m k - k)

/-- Pattern of `(-1)^neg * m * 2^-k` units, rounded once. -/
def roundPack (F : FloatFormat) (neg : Bool) (m k : Nat) : Nat := packMag F neg (roundMag F m k)

/-- A finite datum as a signed number of units. -/
def signedMag (neg : Bool) (mag : Nat) : Int := if neg then -(mag : Int) else mag

/-- IEEE addition. An exact zero sum is +0 unless both operands are -0. -/
def floatAdd (F : FloatFormat) (a b : Nat) : Nat :=
  match floatVal F a, floatVal F b with
  | .nan, _ => nanPattern F
  | .inf _, .nan => nanPattern F
  | .fin _ _, .nan => nanPattern F
  | .inf s, .inf t => if s = t then infPattern F s else nanPattern F
  | .inf s, .fin _ _ => infPattern F s
  | .fin _ _, .inf t => infPattern F t
  | .fin s m, .fin t n =>
    let z := signedMag s m + signedMag t n
    if z = 0 then packMag F (s && t) 0 else roundPack F (decide (z < 0)) z.natAbs 0

/-- The pattern with its sign bit flipped. -/
def floatNeg (F : FloatFormat) (b : Nat) : Nat :=
  if b / 2 ^ (F.expBits + F.fracBits) % 2 = 1 then b - 2 ^ (F.expBits + F.fracBits)
  else b + 2 ^ (F.expBits + F.fracBits)

/-- IEEE subtraction. -/
def floatSub (F : FloatFormat) (a b : Nat) : Nat := floatAdd F a (floatNeg F b)

/-- IEEE multiplication. -/
def floatMul (F : FloatFormat) (a b : Nat) : Nat :=
  match floatVal F a, floatVal F b with
  | .nan, _ => nanPattern F
  | .inf _, .nan => nanPattern F
  | .fin _ _, .nan => nanPattern F
  | .inf s, .inf t => infPattern F (s != t)
  | .inf s, .fin t n => if n = 0 then nanPattern F else infPattern F (s != t)
  | .fin s m, .inf t => if m = 0 then nanPattern F else infPattern F (s != t)
  | .fin s m, .fin t n => roundPack F (s != t) (m * n) (unitShift F)

/-- IEEE `<`: false when either is a NaN; `-0 < +0` is false. -/
def floatLt (F : FloatFormat) (a b : Nat) : Bool :=
  match floatVal F a, floatVal F b with
  | .nan, _ => false
  | .inf _, .nan => false
  | .fin _ _, .nan => false
  | .inf s, .inf t => s && !t
  | .inf s, .fin _ _ => s
  | .fin _ _, .inf t => !t
  | .fin s m, .fin t n => decide (signedMag s m < signedMag t n)

/-- The largest integer not above a finite datum; a NaN or an infinity has none. -/
def floatFloor (F : FloatFormat) (a : Nat) : Option Int :=
  match floatVal F a with
  | .nan => none
  | .inf _ => none
  | .fin s m => some (signedMag s m / (2 ^ unitShift F : Nat))

/-- The datum nearest an integer. -/
def floatOfInt (F : FloatFormat) (i : Int) : Nat :=
  roundPack F (decide (i < 0)) (i.natAbs * 2 ^ unitShift F) 0

/-- The NUM record of a binary format of `w` bits, with the patterns of 100 and of the three gains. -/
def ieeeNum (w : Nat) (F : FloatFormat) (hundred kp ki kd : BitVec w) : Num (BitVec w) where
  ofInt i := BitVec.ofNat w (floatOfInt F i)
  add a b := BitVec.ofNat w (floatAdd F a.toNat b.toNat)
  sub a b := BitVec.ofNat w (floatSub F a.toNat b.toNat)
  mul a b := BitVec.ofNat w (floatMul F a.toNat b.toNat)
  lt a b := floatLt F a.toNat b.toNat
  floor a := floatFloor F a.toNat
  hundred := hundred
  zero := 0
  kp := kp
  ki := ki
  kd := kd

/-- NUM of this hardware: binary32 with the gain patterns of R172 and the literals of R171. -/
def binary32 : Num Binary32 :=
  ieeeNum 32 binary32Format 0x42C80000#32 0x37D1B717#32 0x2D83F0FF#32 0x3F4CCCCD#32

/-- The binary64 instance, with the gain patterns of R172. -/
def binary64 : Num Binary64 :=
  ieeeNum 64 binary64Format 0x4059000000000000#64 0x3EFA36E2EB1C432D#64 0x3DB07E1FE91B0B70#64
    0x3FE999999999999A#64

/-- The exact instance of R184: rationals, with the decimal gains. -/
def exactNum : Num Rat where
  ofInt i := i
  add a b := a + b
  sub a b := a - b
  mul a b := a * b
  lt a b := decide (a < b)
  floor a := some a.floor
  hundred := 100
  zero := 0
  kp := 1 / 40000
  ki := 3 / 200000000000
  kd := 4 / 5

/-! ### NUM as a field of the configuration -/

/-- The carrier of an instance. -/
abbrev NumKind.Carrier : NumKind → Type
  | .binary32 => Binary32
  | .binary64 => Binary64
  | .exact => Rat

/-- The primitives of an instance. -/
def NumKind.num : (k : NumKind) → Num k.Carrier
  | .binary32 => Sys2Proof.binary32
  | .binary64 => Sys2Proof.binary64
  | .exact => exactNum

/-! ### The control law over any NUM -/

/-- PIDState (10_state.md R31). -/
structure PidRegs (α : Type) where
  /-- PID.INTEGRAL. -/
  integral : α
  /-- PID.PREV_ERR. -/
  prevErr : α
  /-- PID.INTERNAL. -/
  internal : α
  deriving DecidableEq, Repr

/-- PIDState as the registers hold it: three data of the run's NUM, marked with the format they are data of. -/
inductive PidState where
  | binary32 (regs : PidRegs Binary32)
  | binary64 (regs : PidRegs Binary64)
  | exact (regs : PidRegs Rat)
  deriving DecidableEq, Repr

/-- Registers of an instance, as PIDState holds them. -/
def PidState.ofRegs : (k : NumKind) → PidRegs k.Carrier → PidState
  | .binary32, p => .binary32 p
  | .binary64, p => .binary64 p
  | .exact, p => .exact p

/-- PIDState read as registers of an instance; none where it holds data of another. -/
def PidState.regsAs (k : NumKind) (p : PidState) : Option (PidRegs k.Carrier) :=
  match k, p with
  | .binary32, .binary32 r => some r
  | .binary64, .binary64 r => some r
  | .exact, .exact r => some r
  | _, _ => none

/-- PIDState as its constructor and the PID reset leave it: all +0 (R30, R173). -/
def zeroPid {α : Type} (N : Num α) : PidRegs α :=
  { integral := N.zero, prevErr := N.zero, internal := N.zero }

/-- The error `DESIRED - MEASURED`, subtracted as integers and converted exactly (R174). -/
def pidError {α : Type} (N : Num α) (desired measured : Nat) : α :=
  N.ofInt ((desired : Int) - (measured : Int))

/-- The increment `(KP*e + KI*I) + KD*dv`, each product and each sum rounded once (R174). -/
def pidIncrement {α : Type} (N : Num α) (e i dv : α) : α :=
  N.add (N.add (N.mul N.kp e) (N.mul N.ki i)) (N.mul N.kd dv)

/-- Clamp of the continuous on-time to [0,100] by NUM comparisons (R175, D31). -/
def pidClamp {α : Type} (N : Num α) (y : α) : α :=
  if N.lt N.hundred y then N.hundred else if N.lt y N.zero then N.zero else y

/-- The control law (R170): the updated integral enters the KI term, the sum is added to the internal on-time and
clamped, the error becomes the previous error, and the new ONTIME is the floor of the clamped value. `none` where
`num_floor` is undefined (R181). -/
def pidLaw {α : Type} (N : Num α) (p : PidRegs α) (desired measured : Nat) : Option (PidRegs α × Int) :=
  let e := pidError N desired measured
  let i := N.add p.integral e
  let dv := N.sub e p.prevErr
  let y := pidClamp N (N.add p.internal (pidIncrement N e i dv))
  match N.floor y with
  | none => none
  | some on => some ({ integral := i, prevErr := e, internal := y }, on)

end Sys2Proof
end

