-- ==== Sys2Proof/Machine/State.lean ====
section
/-! DEFINITION. The state as plain data: the sixteen registers of 10_state.md, the output ports of 20_memory.md
R63, the input ports and their sampled copies (R61, R62), the quantities that pass from one operation of an
iteration to the next (R24), the mark of a faulted run (60_exceptions.md R255), the configuration of the run (R8)
and the stimulus the platform has yet to present; the reasons a step can stop; and the state after RESET. -/

namespace Sys2Proof.Machine

/-- TachometerState, written by TACH alone (R33, R37). -/
structure TachRegs where
  /-- T.WIN, window index of the previous TACH call. -/
  win : Nat
  /-- T.PREV, sensor pin at the previous TACH call. -/
  prev : Bool
  /-- T.PREV2, sensor pin at the TACH call before that. -/
  prev2 : Bool
  /-- T.ACC, pulses counted since the last window change. -/
  acc : Nat
  deriving DecidableEq, Repr

/-- RampState, written by RAMP alone (R36, R37). -/
structure RampRegs where
  /-- RAMP.DIR: `false` (0) rising, `true` (1) falling. -/
  dir : Bool
  /-- RAMP.ELAPSED, RAMP calls since the last unit step. -/
  elapsed : Nat
  deriving DecidableEq, Repr

/-- The output ports, which hold their value between writes (R63). -/
structure Out where
  /-- PWM_PIN. -/
  pwmPin : Bool
  /-- O_MODE. -/
  oMode : BitVec 2
  /-- O_ALT. -/
  oAlt : Bool
  /-- O_DUTY. -/
  oDuty : Percent
  /-- O_RPS. -/
  oRps : Nat
  /-- O_DESIRED. -/
  oDesired : BitVec 6
  /-- O_ONTIME. -/
  oOntime : Percent
  /-- O_FREQ. -/
  oFreq : Nat
  deriving DecidableEq, Repr

/-- The results of PHASE, DESIRED and MEASURED on their way to PWM and PID. They are wires, not registers: every
iteration computes all three before anything reads them (R24). Assumption 3. -/
structure Wires where
  /-- PHASE. -/
  phase : Nat
  /-- DESIRED. -/
  desired : Nat
  /-- MEASURED. -/
  measured : Nat
  deriving DecidableEq, Repr

/-- One thing the outside presents to one step. -/
inductive Stimulus where
  /-- What the platform presents: the level of pin RST and the nine input ports (R61, R73, R88). -/
  | platform (rst : Bool) (inp : In)
  /-- A test bench presents one decode word: the packed inputs IW of one iteration (R91), the pin's word, or the word
  that selects one operation at a slot, applied outside any iteration as the vectors of 95_test_vectors.md sections
  2.2 to 2.9 do (R73, R290). Assumption 2. -/
  | bench (e : Encoded)
  deriving DecidableEq, Repr

/-- Why a step ends in the fault outcome. -/
inductive Fault where
  /-- DivideFault, cause code 1, with the offending PWM_FREQ: raised by ITER and PHASE when PWM_FREQ is 0 or above
  CLOCK_FREQ (R250). The spec's own outcome: safe. -/
  | divideFault (freq : Nat)
  /-- Raised by ITER on a run that is marked faulted: the spec gives such an iteration no meaning, only RESET leaves
  the condition (R255, R256, V5 "stuck"). Safe. -/
  | runFaulted
  /-- Raised by PID when the value to be floored is not a number, which needs a NaN or an infinity forced into
  PIDState: `num_floor` is undefined there and the spec says to treat it as a fault of the test (R181, V6). Safe. -/
  | pidNotANumber
  deriving DecidableEq, Repr

/-- Why a step is refused. -/
inductive Refusal where
  /-- Raised by `exec` for an instruction that has no meaning yet. Safe. -/
  | notModelled (mnemonic : String)
  /-- Raised by `step` when a bench word selects no operation at its slot; a platform word always decodes. Safe. -/
  | undecodable (e : DecodeError)
  /-- Raised by `step` and by the operations that divide by a configuration constant when the configuration breaks
  a constraint of R9, which "is refused by the model; it is not a run of the hardware", or gives a constant that the
  rules write out another value than R8's (assumption 6). Safe. -/
  | configOutOfRange
  /-- Raised by PID when PIDState holds data of another NUM than the configuration's: no operation leaves such a
  PIDState, and it is no state of a run (R8, R32). Safe. -/
  | pidStateOfAnotherNum
  deriving DecidableEq, Repr

/-- The cause code of a fault: 1 is DivideFault and no other code exists (R252). -/
def Fault.causeCode : Fault → Option Nat
  | .divideFault _ => some 1
  | .runFaulted => none
  | .pidNotANumber => none

/-- The state of the machine. -/
structure State where
  /-- DUTY (R20, R21). -/
  duty : Percent
  /-- ONTIME (R20, R22). -/
  ontime : Percent
  /-- RPS (R20, R23). -/
  rps : Nat
  /-- MODE (R25, R26). -/
  mode : Mode
  /-- PID_RST (R25, R27). -/
  pidRst : Bool
  /-- PWM_OUT (R25, R29). -/
  pwmOut : Bool
  /-- PIDState: PID.INTEGRAL, PID.PREV_ERR, PID.INTERNAL (R31, R32). -/
  pid : PidState
  /-- TachometerState: T.WIN, T.PREV, T.PREV2, T.ACC (R33). -/
  tach : TachRegs
  /-- Q.PREV_A (R35). -/
  qPrevA : Bool
  /-- RampState: RAMP.DIR, RAMP.ELAPSED (R36). -/
  ramp : RampRegs
  /-- The output ports (R63). -/
  out : Out
  /-- The levels the input ports present (R61); inputs, not state of the CORE. Assumption 3. -/
  ports : In
  /-- The ports as SAMPLE latched them for the current iteration (R62, R221). Assumption 3. -/
  latch : In
  /-- PHASE, DESIRED and MEASURED of the current iteration (R24). Assumption 3. -/
  wires : Wires
  /-- The run is marked as faulted (R255). Assumption 4. -/
  faulted : Bool
  /-- The configuration of the run, which no operation writes (R8, R72). Assumption 6. -/
  cfg : Cfg
  /-- What the outside presents to the next steps, the next one first; when it is empty the platform presents free
  values. Assumption 1. -/
  feed : List Stimulus
  /-- How many steps have drawn free values; the model's own counter. Assumption 1. -/
  draws : Nat
  deriving DecidableEq, Repr

/-- TachometerState as its constructor leaves it (R281). -/
def zeroTach : TachRegs := { win := 0, prev := false, prev2 := false, acc := 0 }

/-- RampState as its constructor leaves it: rising, nothing elapsed (R281). -/
def zeroRamp : RampRegs := { dir := false, elapsed := 0 }

/-- The output ports after RESET and before the first iteration (R282). -/
def zeroOut : Out where
  pwmPin := false
  oMode := 0b00#2
  oAlt := false
  oDuty := 0#7
  oRps := 0
  oDesired := 0#6
  oOntime := 0#7
  oFreq := 0

/-- No quantity computed yet. DESIGN CHOICE (assumption 3): every iteration computes all three before it reads one. -/
def zeroWires : Wires := { phase := 0, desired := 0, measured := 0 }

/-- The machine right after RESET (R281, R282): every register zero, MODE Off, PIDState `0x00000000`, the output
ports low; what the input ports present is free (R258, R283); no stimulus is given. -/
def State.reset : State where
  duty := 0#7
  ontime := 0#7
  rps := 0
  mode := .off
  pidRst := false
  pwmOut := false
  pid := .binary32 { integral := 0x00000000#32, prevErr := 0x00000000#32, internal := 0x00000000#32 }
  tach := zeroTach
  qPrevA := false
  ramp := zeroRamp
  out := zeroOut
  ports := Config.inputsAtReset
  latch := sampleIn Config.hardware Config.inputsAtReset
  wires := zeroWires
  faulted := false
  cfg := Config.hardware
  feed := []
  draws := 0

end Sys2Proof.Machine
end

