-- ==== Sys2Proof/Machine/Ops.lean ====
section
/-! DEFINITION. The named operations over the registers and the ports: one setter per register, `MemRead` and
`MemWrite` of 00_scope.md R13 (the port space is the CORE's whole memory, 20_memory.md R60), sequencing of
operations, the shared operation of raising DivideFault (60_exceptions.md R250, R255) with RESET beside it as the
only way out (R256, R280), and the fetch of what one step is given. -/

namespace Sys2Proof.Machine

/-- The result of one operation. -/
abbrev Result := Host.Outcome State Fault Refusal

/-! ### Registers -/

/-- `x[DUTY] <- v`. -/
def State.setDuty (s : State) (v : Percent) : State := { s with duty := v }
/-- `x[ONTIME] <- v`. -/
def State.setOntime (s : State) (v : Percent) : State := { s with ontime := v }
/-- `x[RPS] <- v`. -/
def State.setRps (s : State) (v : Nat) : State := { s with rps := v }
/-- `x[MODE] <- v`. -/
def State.setMode (s : State) (v : Mode) : State := { s with mode := v }
/-- `x[PID_RST] <- v`. -/
def State.setPidRst (s : State) (v : Bool) : State := { s with pidRst := v }
/-- `x[PWM_OUT] <- v`. -/
def State.setPwmOut (s : State) (v : Bool) : State := { s with pwmOut := v }
/-- Write of PIDState. -/
def State.setPid (s : State) (v : PidState) : State := { s with pid := v }
/-- Write of TachometerState. -/
def State.setTach (s : State) (v : TachRegs) : State := { s with tach := v }
/-- `x[Q.PREV_A] <- v`. -/
def State.setQPrevA (s : State) (v : Bool) : State := { s with qPrevA := v }
/-- Write of RampState. -/
def State.setRamp (s : State) (v : RampRegs) : State := { s with ramp := v }
/-- Write of the output ports. -/
def State.setOut (s : State) (v : Out) : State := { s with out := v }
/-- The outside drives the input ports. -/
def State.setPorts (s : State) (v : In) : State := { s with ports := v }
/-- Write of the sampled copies. -/
def State.setLatch (s : State) (v : In) : State := { s with latch := v }
/-- Drive of the wires between operations. -/
def State.setWires (s : State) (v : Wires) : State := { s with wires := v }
/-- Mark of the run. -/
def State.setFaulted (s : State) (v : Bool) : State := { s with faulted := v }
/-- What the outside presents next. -/
def State.setFeed (s : State) (v : List Stimulus) : State := { s with feed := v }
/-- Count of free steps. -/
def State.setDraws (s : State) (v : Nat) : State := { s with draws := v }

/-! ### Ports -/

/-- The input ports of R61. -/
inductive InPort where
  | cnt | tachIn | quadA | quadB | sel | pwmFreq | resp | rampMult | altInfo
  deriving DecidableEq, Repr

/-- The output ports of R63. -/
inductive OutPort where
  | pwmPin | oMode | oAlt | oDuty | oRps | oDesired | oOntime | oFreq
  deriving DecidableEq, Repr

/-- Width of an input port (R61). -/
def inWidth (c : Cfg) : InPort → Nat
  | .cnt => c.cntW
  | .tachIn => 1
  | .quadA => 1
  | .quadB => 1
  | .sel => 4
  | .pwmFreq => c.freqW
  | .resp => c.respW
  | .rampMult => c.multW
  | .altInfo => 1

/-- A port of an input record, whole and zero-extended (R68, R89). -/
def readIn (i : In) : InPort → Nat
  | .cnt => i.cnt
  | .tachIn => bitNat i.tachIn
  | .quadA => bitNat i.quadA
  | .quadB => bitNat i.quadB
  | .sel => i.sel.toNat
  | .pwmFreq => i.pwmFreq
  | .resp => i.resp
  | .rampMult => i.rampMult
  | .altInfo => bitNat i.altInfo

/-- `MemRead(PORT, n)`: the value sampled for this iteration (R62). -/
def memRead (s : State) (p : InPort) : Nat := readIn s.latch p

/-- The value an output port holds, zero-extended. -/
def readOut (o : Out) : OutPort → Nat
  | .pwmPin => bitNat o.pwmPin
  | .oMode => o.oMode.toNat
  | .oAlt => bitNat o.oAlt
  | .oDuty => o.oDuty.toNat
  | .oRps => o.oRps
  | .oDesired => o.oDesired.toNat
  | .oOntime => o.oOntime.toNat
  | .oFreq => o.oFreq

/-- Width of an output port (R63). -/
def outWidth (c : Cfg) : OutPort → Nat
  | .pwmPin => 1
  | .oMode => 2
  | .oAlt => 1
  | .oDuty => 7
  | .oRps => c.accW
  | .oDesired => 6
  | .oOntime => 7
  | .oFreq => c.freqW

/-- An output port driven with a value, at the port's full width. -/
def writeOut (c : Cfg) (o : Out) (p : OutPort) (v : Nat) : Out :=
  match p with
  | .pwmPin => { o with pwmPin := decide (v % 2 = 1) }
  | .oMode => { o with oMode := BitVec.ofNat 2 v }
  | .oAlt => { o with oAlt := decide (v % 2 = 1) }
  | .oDuty => { o with oDuty := BitVec.ofNat 7 v }
  | .oRps => { o with oRps := v % 2 ^ c.accW }
  | .oDesired => { o with oDesired := BitVec.ofNat 6 v }
  | .oOntime => { o with oOntime := BitVec.ofNat 7 v }
  | .oFreq => { o with oFreq := v % 2 ^ c.freqW }

/-- `MemWrite(PORT, n, v)`: the port holds `v` until the next write to it (R63). -/
def memWrite (s : State) (p : OutPort) (v : Nat) : State := s.setOut (writeOut s.cfg s.out p v)

/-! ### Arithmetic -/

/-- `clamp(v, lo, hi)` of R12, on a mathematical integer, before the store. -/
def clampInt (v lo hi : Int) : Int := if v < lo then lo else if hi < v then hi else v

/-- A write of DUTY: the value is clamped to 0..DUTY_MAX and then stored (R21, "clamped on every mutation"). -/
def clampedDuty (c : Cfg) (d : Int) : Percent := BitVec.ofInt 7 (clampInt d 0 (c.dutyMax : Int))

/-! ### Sequencing, faults and reset -/

/-- The operation `k` after the operation that answered `r`: it runs on the state that one left (R70). A fault ends
the iteration there (R13). -/
def andThen (r : Result) (k : State → Result) : Result :=
  match r with
  | .next s => k s
  | .fault f => .fault f
  | .refused e => .refused e

/-- A configuration that `Cfg.wf` rejects is refused (R9). -/
def withCfg (s : State) (k : State → Result) : Result :=
  if s.cfg.wf then k s else .refused .configOutOfRange

/-- `raise DivideFault(info)`: the fault outcome, with the offending PWM_FREQ; there is no handler, no saved pc and
no mode switch, and no register or port is written (R250, R255, R230). -/
def raiseDivideFault (freq : Nat) : Result := .fault (.divideFault freq)

/-- PWM_FREQ is degenerate (R100, R250). -/
def degenerateFreq (c : Cfg) (freq : Nat) : Bool := decide (freq = 0) || decide (c.clockFreq < freq)

/-- Step 2 of ITER (R220): DivideFault on a degenerate PWM_FREQ, before anything is written. -/
def checkFreq (s : State) : Result :=
  if degenerateFreq s.cfg (memRead s .pwmFreq) then raiseDivideFault s.latch.pwmFreq else .next s

/-- The state a faulted run rests in: unchanged but for the mark (R255). -/
def markFaulted (s : State) : State := s.setFaulted true

/-- RESET (R280): every register and output port at its reset value, PIDState +0 in the run's NUM, and a fresh run.
Nothing else changes: the counter, the pins and the configuration are not the CORE's (R283), and neither are the
model's own fields. Assumption 13. -/
def resetState (s : State) : State :=
  { State.reset with
    pid := .ofRegs s.cfg.num (zeroPid s.cfg.num.num), ports := s.ports, latch := s.latch, wires := s.wires,
    cfg := s.cfg, feed := s.feed, draws := s.draws }

/-! ### Fetch -/

/-- The instruction a stimulus asks for. RST = 1 has priority and the inputs are ignored (R254). -/
def presented : Stimulus → Except DecodeError Instr
  | .platform rst inp => .ok (if rst then .reset else .iter inp)
  | .bench e => decode e

/-- What the platform presents when no stimulus is given: free values (R258, R262). Assumption 1. -/
def freeStimulus (n : Nat) : Stimulus := .platform (Config.freeRst n) (Config.freeInputs n)

/-- The instruction the next step is given, and the state with its stimulus consumed. -/
def fetch (s : State) : Except DecodeError Instr × State :=
  match s.feed with
  | [] => (presented (freeStimulus s.draws), s.setDraws (s.draws + 1))
  | x :: rest => (presented x, s.setFeed rest)

/-- The stimulus that makes the next step run the operation of a table word: the fields of IW go to the platform's
ports, any other word to the bench. Assumption 9. -/
def tableStimulus (nbits w : Nat) : Stimulus :=
  if nbits = 88 then .platform false (unpackIw (BitVec.ofNat 88 w)) else .bench (tableWord nbits w)

end Sys2Proof.Machine
end

