-- ==== Sys2Proof/Machine/Operands.lean ====
section
/-! DEFINITION. Every operand form: the derived quantities that are recomputed in each iteration (10_state.md R24),
the decode words taken from registers (30_encoding.md R81), and the pre-clamp duty cycles (R89). All arithmetic is
on mathematical integers (R11, D16). -/

namespace Sys2Proof.Machine

/-- PERIOD (R100). -/
def period (c : Cfg) (freq : Nat) : Nat := c.clockFreq / freq

/-- PHASE (R101): the product first, at full precision (R103), then the division. -/
def phaseValue (c : Cfg) (cnt freq : Nat) : Nat :=
  c.phaseSteps * (cnt % period c freq) / period c freq

/-- DESIRED (R185). -/
def desiredValue (duty : Percent) : Nat := duty.toNat / 2

/-- MEASURED (R130): the product first, at full precision, then the division, then the clamp. -/
def measuredValue (c : Cfg) (rps : Nat) : Nat := min c.speedMax (rps * c.speedMax / c.maxRps)

/-- The tachometer's window index (R121); the inner division is done first. -/
def windowIndex (c : Cfg) (cnt : Nat) : Nat := cnt / (c.clockFreq / c.windowsPerSec)

/-- The MODE word, read after the selector operation (R81). -/
def modeWord (s : State) : BitVec 2 := modeBits s.mode

/-- The GATE word `{PWM_OUT, Z}` with `Z = 1` when ONTIME is 0 (R81, R228). -/
def gateWord (s : State) : BitVec 2 :=
  BitVec.ofNat 2 (2 * bitNat s.pwmOut + bitNat (decide (s.ontime = 0#7)))

/-- QUAD's duty cycle before the clamp (R140, R141, R142): a transition of A adds the step when A differs from B and
subtracts it otherwise. -/
def quadDuty (duty step : Nat) (a b prevA : Bool) : Int :=
  if a != prevA then (if a != b then (duty : Int) + step else (duty : Int) - step) else (duty : Int)

/-- RAMP's threshold (R152). -/
def rampThreshold (c : Cfg) (mult : Nat) : Nat := c.rampUnit * mult

/-- Whether a unit step is applied in this RAMP call: the call counter is incremented first (R151, R152). -/
def rampSteps (c : Cfg) (elapsed mult : Nat) : Bool := decide (rampThreshold c mult ≤ elapsed + 1)

/-- RAMP's duty cycle before the clamp (R150). -/
def rampDuty (c : Cfg) (duty elapsed mult : Nat) (dir : Bool) : Int :=
  if rampSteps c elapsed mult then (if dir then (duty : Int) - 1 else (duty : Int) + 1) else (duty : Int)

/-- RAMP's call counter after the call (R150). -/
def rampElapsed (c : Cfg) (elapsed mult : Nat) : Nat := if rampSteps c elapsed mult then 0 else elapsed + 1

end Sys2Proof.Machine
end

