-- ==== Sys2Proof/Machine/Flags.lean ====
section
/-! DEFINITION. Every one-bit quantity that acts as a flag (10_state.md R29): PWM_OUT, RAMP.DIR and the edge
predicate of TACH. PID_RST, the fourth, has no computation of its own: SEL_CLOSED sets it, PID clears it. -/

namespace Sys2Proof.Machine

/-- PWM_OUT: the strict comparison `PHASE < ONTIME` (R105). -/
def pwmOn (phase : Nat) (ontime : Percent) : Bool := decide (phase < ontime.toNat)

/-- The edge predicate, the source's literal expression (R122): the samples oldest to newest are 0, 1, 1. -/
def tachEdge (pin prev prev2 : Bool) : Bool := (pin == true) && (prev == true) && (prev != prev2)

/-- RAMP.DIR after a call, from the duty cycle before the clamp (R153). -/
def rampDir (c : Cfg) (d : Int) (dir : Bool) : Bool :=
  if (c.dutyMax : Int) ≤ d then true else if d ≤ 0 then false else dir

end Sys2Proof.Machine
end

