-- ==== Sys2Proof/Machine/DutySources.lean ====
section
/-! DEFINITION. The duty-cycle sources (42_duty_sources.md): QUAD and RAMP. -/

namespace Sys2Proof.Machine

/-- QUAD (R140): the history takes the sampled A in every call (R143), DUTY the clamped sum (R144). -/
def execQuad (s : State) : Result :=
  let d := quadDuty s.duty.toNat (memRead s .resp) s.latch.quadA s.latch.quadB s.qPrevA
  .next ((s.setQPrevA s.latch.quadA).setDuty (clampedDuty s.cfg d))

/-- RAMP (R150): count, step, flip, clamp, in that order (D19). -/
def execRamp (s : State) : Result :=
  let m := memRead s .rampMult
  let d := rampDuty s.cfg s.duty.toNat s.ramp.elapsed m s.ramp.dir
  let r : RampRegs :=
    { dir := rampDir s.cfg d s.ramp.dir, elapsed := rampElapsed s.cfg s.ramp.elapsed m % 2 ^ s.cfg.elapsedW }
  .next ((s.setRamp r).setDuty (clampedDuty s.cfg d))

end Sys2Proof.Machine
end

