-- ==== Sys2Proof/Machine/ModeSelect.lean ====
section
/-! DEFINITION. The Mode State Machine (44_mode_select.md): the six selector operations over the shared entry rule. -/

namespace Sys2Proof.Machine

/-- `SELECT(t)` (R205): nothing changes when the mode is already `t`; entry to Off writes MODE alone (R210); entry to
any other mode zeroes DUTY and RPS, and entry to ClosedLoop raises PID_RST. -/
def selectMode (t : Mode) (s : State) : State :=
  if t = s.mode then s
  else
    match t with
    | .off => s.setMode .off
    | .ramp => ((s.setMode .ramp).setDuty 0#7).setRps 0
    | .closedLoop => (((s.setMode .closedLoop).setDuty 0#7).setRps 0).setPidRst true
    | .openLoop => ((s.setMode .openLoop).setDuty 0#7).setRps 0

/-- SEL_NONE (R201): no event, no register changes. -/
def execSelNone (s : State) : Result := .next s

/-- SEL_OFF (R202). -/
def execSelOff (s : State) : Result := .next (selectMode .off s)

/-- SEL_RAMP (R203). -/
def execSelRamp (s : State) : Result := .next (selectMode .ramp s)

/-- SEL_CLOSED (R204). -/
def execSelClosed (s : State) : Result := .next (selectMode .closedLoop s)

/-- SEL_OPEN (R206). -/
def execSelOpen (s : State) : Result := .next (selectMode .openLoop s)

/-- SEL_UNREC (R207): ignored, the prior mode is retained, no flag, no fault. -/
def execSelUnrec (s : State) : Result := .next s

end Sys2Proof.Machine
end

