-- ==== Sys2Proof/Machine/PhasePwm.lean ====
section
/-! DEFINITION. The Clock/Phase Generator and the PWM Driver (40_phase_pwm.md): PHASE and PWM. -/

namespace Sys2Proof.Machine

/-- PHASE (R101): DivideFault on a degenerate PWM_FREQ, otherwise the phase of the sampled counter; no register is
written. -/
def execPhase (s : State) : Result :=
  withCfg s fun s =>
    andThen (checkFreq s) fun s =>
      .next (s.setWires { s.wires with phase := phaseValue s.cfg (memRead s .cnt) (memRead s .pwmFreq) })

/-- PWM (R105): PWM_OUT and PWM_PIN are driven exactly when PHASE is below ONTIME. -/
def execPwm (s : State) : Result :=
  let on := pwmOn s.wires.phase s.ontime
  .next (memWrite (s.setPwmOut on) .pwmPin (bitNat on))

end Sys2Proof.Machine
end

