-- ==== Sys2Proof/Machine/Pid.lean ====
section
/-! DEFINITION. The PID Controller (43_pid.md): PID and DESIRED. The law itself is `pidLaw` of Machine/Num.lean, at
the NUM the configuration names (binary32 on this hardware). -/

namespace Sys2Proof.Machine

/-- The control law on the registers (R170, R174 to R177): ONTIME is the floor of the clamped internal on-time. A
value that is not a number has no floor (R181, assumption 7). -/
def runPidLaw (s : State) : Result :=
  match s.pid.regsAs s.cfg.num with
  | none => .refused .pidStateOfAnotherNum
  | some p =>
    match pidLaw s.cfg.num.num p s.wires.desired s.wires.measured with
    | some (q, on) => .next ((s.setPid (.ofRegs s.cfg.num q)).setOntime (BitVec.ofInt 7 on))
    | none => .fault .pidNotANumber

/-- The reset branch's writes to PIDState and PID_RST (R173). -/
def consumePidReset (s : State) : State := (s.setPid (.ofRegs s.cfg.num (zeroPid s.cfg.num.num))).setPidRst false

/-- PID (R170, R173): a pending reset is consumed, and unless PID_RESET_COMPUTES the law does not run in that call
and ONTIME is 0. -/
def execPid (s : State) : Result :=
  if s.pidRst then
    if s.cfg.pidResetComputes then runPidLaw (consumePidReset s) else .next ((consumePidReset s).setOntime 0#7)
  else runPidLaw s

/-- DESIRED (R185), not stored. -/
def execDesired (s : State) : Result :=
  .next (s.setWires { s.wires with desired := desiredValue s.duty })

end Sys2Proof.Machine
end

