-- ==== Sys2Proof/Machine/Tachometer.lean ====
section
/-! DEFINITION. The Tachometer (41_tachometer.md): TACH, TACH_SKIP and MEASURED. -/

namespace Sys2Proof.Machine

/-- TachometerState and RPS after a call with window index `w` and sensor sample `pin` (R120 to R125, R128); each
store is at its register's width (R11). -/
def tachCall (w : Nat) (pin : Bool) (s : State) : State :=
  let changed := w != s.tach.win
  let edge := tachEdge pin s.tach.prev s.tach.prev2
  let acc := if changed then 0 else if edge then (s.tach.acc + 1) % 2 ^ s.cfg.accW else s.tach.acc
  (if changed then s.setRps (s.tach.acc % 2 ^ s.cfg.accW) else s).setTach
    { win := w % 2 ^ s.cfg.winW, prev := pin, prev2 := s.tach.prev, acc := acc }

/-- TACH (R120). -/
def execTach (s : State) : Result :=
  withCfg s fun s => .next (tachCall (windowIndex s.cfg (memRead s .cnt)) s.latch.tachIn s)

/-- TACH_SKIP (R129): no effect; the sampled TACH_IN is discarded. -/
def execTachSkip (s : State) : Result := .next s

/-- MEASURED (R130), not stored. -/
def execMeasured (s : State) : Result :=
  withCfg s fun s => .next (s.setWires { s.wires with measured := measuredValue s.cfg s.rps })

end Sys2Proof.Machine
end

