-- ==== Sys2Proof/Machine/Iteration.lean ====
section
/-! DEFINITION. The iteration and its sequencing (45_iteration.md): SAMPLE, SRC_OFF, DIRECT, OUT and the composite
ITER, which decodes the SEL, MODE and GATE words and runs the operations they select. -/

namespace Sys2Proof.Machine

/-- SAMPLE (R221): every input port is latched at the same instant, at its width (R68). -/
def execSample (s : State) : Result := .next (s.setLatch (sampleIn s.cfg s.ports))

/-- SRC_OFF (R223): Off drives nothing. -/
def execSrcOff (s : State) : Result := .next (s.setOntime 0#7)

/-- DIRECT (R224): ONTIME copies DUTY. -/
def execDirect (s : State) : Result := .next (s.setOntime s.duty)

/-- OUT (R232): the seven display ports, from the registers and from the two latched inputs that pass through. -/
def execOut (s : State) : Result :=
  let s1 := memWrite s .oMode (modeWord s).toNat
  let s2 := memWrite s1 .oAlt (memRead s .altInfo)
  let s3 := memWrite s2 .oDuty s.duty.toNat
  let s4 := memWrite s3 .oRps s.rps
  let s5 := memWrite s4 .oDesired (desiredValue s.duty)
  let s6 := memWrite s5 .oOntime s.ontime.toNat
  .next (memWrite s6 .oFreq (memRead s .pwmFreq))

/-- Step 3 of R220: the one operation the SEL word selects (R82). -/
def runSelector (w : BitVec 4) (s : State) : Result :=
  if w = 0b0000#4 then execSelNone s
  else if w = 0b0001#4 then execSelOff s
  else if w = 0b0010#4 then execSelRamp s
  else if w = 0b0100#4 then execSelClosed s
  else if w = 0b1000#4 then execSelOpen s
  else execSelUnrec s

/-- Step 5 of R220: the duty-cycle source of the MODE word, none in Off (R222). -/
def runDutySource (m : BitVec 2) (s : State) : Result :=
  if m = 0b00#2 then .next s else if m = 0b01#2 then execRamp s else execQuad s

/-- Step 7 of R220: the on-time source of the MODE word (R222). -/
def runOnTimeSource (m : BitVec 2) (s : State) : Result :=
  if m = 0b00#2 then execSrcOff s else if m = 0b10#2 then execPid s else execDirect s

/-- Step 9 of R220: the tachometer gate (R228). -/
def runGate (g : BitVec 2) (s : State) : Result := if g = 0b00#2 then execTachSkip s else execTach s

/-- Steps 3 to 10 of R220, on latched inputs with a legal PWM_FREQ. -/
def runPipeline (s : State) : Result :=
  andThen (runSelector s.latch.sel s) fun s =>
  andThen (execPhase s) fun s =>
  andThen (runDutySource (modeWord s) s) fun s =>
  andThen (execDesired s) fun s =>
  andThen (execMeasured s) fun s =>
  andThen (runOnTimeSource (modeWord s) s) fun s =>
  andThen (execPwm s) fun s =>
  andThen (runGate (gateWord s) s) fun s =>
  execOut s

/-- ITER (R220): the inputs are presented, sampled and checked, then the pipeline runs. An iteration of a run that is
marked faulted has no meaning in the spec (R255, V5). Assumption 4. -/
def execIter (i : In) (s : State) : Result :=
  withCfg s fun s =>
    if s.faulted then .fault .runFaulted
    else
      andThen (execSample (s.setPorts i)) fun s =>
      andThen (checkFreq s) fun s =>
      runPipeline s

end Sys2Proof.Machine
end

