-- ==== Sys2Proof/Machine/Reset.lean ====
section
/-! DEFINITION. RESET (70_reset_and_hazards.md R280). -/

namespace Sys2Proof.Machine

/-- RESET (R280): every register and output port takes its reset value and a faulted run becomes a fresh one. -/
def execReset (s : State) : Result := .next (resetState s)

end Sys2Proof.Machine
end

