-- ==== Sys2Proof/Machine/Dispatch.lean ====
section
/-! DEFINITION. One arm per operation of spec/opcode_table.json: a direct call of its meaning. -/

namespace Sys2Proof.Machine

def exec (i : Instr) (s : State) : Host.Outcome State Fault Refusal :=
  match i with
  | .reset => Sys2Proof.Machine.execReset s
  | .iter inp => Sys2Proof.Machine.execIter inp s
  | .sample => Sys2Proof.Machine.execSample s
  | .phase => Sys2Proof.Machine.execPhase s
  | .desired => Sys2Proof.Machine.execDesired s
  | .measured => Sys2Proof.Machine.execMeasured s
  | .pwm => Sys2Proof.Machine.execPwm s
  | .out => Sys2Proof.Machine.execOut s
  | .selNone => Sys2Proof.Machine.execSelNone s
  | .selOff => Sys2Proof.Machine.execSelOff s
  | .selRamp => Sys2Proof.Machine.execSelRamp s
  | .selUnrec _ => Sys2Proof.Machine.execSelUnrec s
  | .selClosed => Sys2Proof.Machine.execSelClosed s
  | .selOpen => Sys2Proof.Machine.execSelOpen s
  | .srcOff => Sys2Proof.Machine.execSrcOff s
  | .ramp => Sys2Proof.Machine.execRamp s
  | .pid => Sys2Proof.Machine.execPid s
  | .quad _ => Sys2Proof.Machine.execQuad s
  | .direct _ => Sys2Proof.Machine.execDirect s
  | .tachSkip => Sys2Proof.Machine.execTachSkip s
  | .tach _ => Sys2Proof.Machine.execTach s

end Sys2Proof.Machine
end

