-- ==== Sys2Proof/Machine/Step.lean ====
section
/-! DEFINITION. One step: one iteration or one RESET (00_scope.md R3, D1), on what the outside presents to it. -/

namespace Sys2Proof.Machine

/-- One step: fetch what is presented, run the instruction it asks for. A configuration that breaks R9 is refused. -/
def step (s : State) : Host.Outcome State Fault Refusal :=
  withCfg s fun s =>
    match (fetch s).1 with
    | .ok i => exec i (fetch s).2
    | .error e => .refused (.undecodable e)

/-- The state a run rests in after a step: the next state, or after a fault the state before the step, marked, with
what was presented to that step lost (R230, R254, R255); a refused step is no step. DESIGN CHOICE (assumption 18): the
mark is set after every fault. R255 sets it for DivideFault only and R181 calls a NaN "a fault of the test, not of the
hardware" and says nothing about the run; here the run rests marked after `pidNotANumber` too, so that only RESET
leaves it. -/
def restAfter (s : State) : State :=
  match step s with
  | .next t => t
  | .fault _ => markFaulted (fetch s).2
  | .refused _ => s

/-- The state whose next step runs a table word: the word is what the outside presents next. -/
def State.withFetchWord (s : State) (nbits w : Nat) : State := s.setFeed (tableStimulus nbits w :: s.feed)

end Sys2Proof.Machine
end

