-- ==== Sys2Proof/Safety.lean ====
section
/-! DEFINITION. What counts as a safe run, in the terms the statements use: the environment assumptions of
60_exceptions.md R262, the invariants of 10_state.md R38 and 43_pid.md R181, and sequences of operations. -/

namespace Sys2Proof.Machine

/-! ### Environment assumptions (R262) -/

/-- ENV-FREQ: `1 <= PWM_FREQ <= CLOCK_FREQ`, on sampled inputs. -/
def EnvFreq (c : Cfg) (i : In) : Prop := 1 ≤ i.pwmFreq ∧ i.pwmFreq ≤ c.clockFreq

/-- The SEL word of the key that asks for a mode (R82). -/
def keyWord : Mode → BitVec 4
  | .off => 0b0001#4
  | .ramp => 0b0010#4
  | .closedLoop => 0b0100#4
  | .openLoop => 0b1000#4

/-- ENV-SEL over the iterations of a run: each key press (the position of its iteration and its key) shows its one-hot
word in that one iteration, no two presses share an iteration, and SEL is 0000 in every other. -/
def EnvSel (presses : List (Nat × Mode)) (run : List In) : Prop :=
  (presses.map Prod.fst).Nodup ∧
    (∀ p ∈ presses, ∃ i, run[p.1]? = some i ∧ i.sel = keyWord p.2) ∧
    (∀ n i, run[n]? = some i → (∀ p ∈ presses, p.1 ≠ n) → i.sel = 0b0000#4)

/-- ENV-RESP: `RESP >= 1` and `RAMP_MULT >= 1`. -/
def EnvResp (i : In) : Prop := 1 ≤ i.resp ∧ 1 ≤ i.rampMult

/-- ENV-MONO from one iteration to the next: unless the counter wrapped between them, CNT is greater or equal, and
greater if any time passed. -/
def EnvMono (wrapped timePassed : Bool) (earlier later : In) : Prop :=
  wrapped = false → earlier.cnt ≤ later.cnt ∧ (timePassed = true → earlier.cnt < later.cnt)

/-- ENV-QUAD between two QUAD calls: at most one of the two phases changes. -/
def EnvQuad (earlier later : In) : Prop := earlier.quadA = later.quadA ∨ earlier.quadB = later.quadB

/-- ENV-RATE: in `seconds` seconds the platform runs that many times ITER_RATE iterations (R8). Assumption 19. -/
def EnvRate (c : Cfg) (seconds iterations : Nat) : Prop := iterations = c.iterRate * seconds

/-! ### Sequences of operations -/

/-- Operations one after the other, ending at the first fault or refusal. -/
def runOps : List Instr → State → Result
  | [], s => .next s
  | i :: rest, s => andThen (exec i s) (runOps rest)

/-! ### Invariants -/

/-- PIDState as R181 says every reachable state has it: INTEGRAL finite and at most 2^30 in magnitude, PREV_ERR an
integer in -50..50, INTERNAL finite, not negative, not -0, at most 100. -/
structure PidInv (p : PidRegs Binary32) : Prop where
  integral : ∃ neg mag, floatVal binary32Format p.integral.toNat = .fin neg mag ∧
    mag ≤ 2 ^ 30 * 2 ^ unitShift binary32Format
  prevErr : ∃ k : Int, -50 ≤ k ∧ k ≤ 50 ∧ p.prevErr = binary32.ofInt k
  internal : ∃ mag, floatVal binary32Format p.internal.toNat = .fin false mag ∧
    mag ≤ 100 * 2 ^ unitShift binary32Format

/-- Every register whose width is a field of the configuration holds a value of that width (R11). -/
structure Fits (s : State) : Prop where
  rps : s.rps < 2 ^ s.cfg.accW
  win : s.tach.win < 2 ^ s.cfg.winW
  acc : s.tach.acc < 2 ^ s.cfg.accW
  elapsed : s.ramp.elapsed < 2 ^ s.cfg.elapsedW

/-- The invariant set of R38, with what R181 adds about PIDState under this hardware's NUM, R9 about the configuration
and R11 about the registers' widths. -/
structure Inv (s : State) : Prop where
  cfg : s.cfg.wf = true
  num : s.cfg.num = .binary32
  fits : Fits s
  duty : s.duty.toNat ≤ 100
  ontime : s.ontime.toNat ≤ 100
  phase : s.wires.phase < 100
  desired : s.wires.desired ≤ 50
  measured : s.wires.measured ≤ 50
  pid : ∃ p, s.pid = .binary32 p ∧ PidInv p

/-- A step is safe when it answers a next state. -/
def Safe (s : State) : Prop := ∃ t, step s = .next t

end Sys2Proof.Machine
end

