-- ==== Sys2Proof/Certificates/Slice0/Obligations.lean ====
section
/-! DEFINITION. The statements for the provers, one `def Obligations.<Name> : Prop` each; OBLIGATIONS.json lists them.
A result statement gives the whole next state as the state before with the named fields changed, so it is also the
operation's frame: every register, output port and other field it does not name is unchanged. The premise
`s.cfg.wf = true` is R9's constraints with R8's values of the five constants the rules write out as numbers. -/

open Sys2Proof Sys2Proof.Machine

/-! ### Terms the statements use -/

/-- The state whose next step is given pin RST and the inputs `i`, ahead of what was there. -/
def Sys2Proof.Certificates.withPlatform (s : State) (rst : Bool) (i : In) : State :=
  { s with feed := .platform rst i :: s.feed }

/-- The tachometer's window index of an input record, at the sampled counter. -/
def Sys2Proof.Certificates.window (c : Cfg) (i : In) : Nat := (sampleIn c i).cnt / (c.clockFreq / 2)

/-- The operations an iteration is made of: neither RESET nor ITER. -/
def Sys2Proof.Certificates.elementaryOp (i : Instr) : Prop := i.mnemonic ≠ .RESET ∧ i.mnemonic ≠ .ITER

/-- The MODE a selector word asks for: that of a one-hot word, none for any other. -/
def Sys2Proof.Certificates.requestedMode (w : BitVec 4) : Option Mode :=
  if w = 0b0001#4 then some .off
  else if w = 0b0010#4 then some .ramp
  else if w = 0b0100#4 then some .closedLoop
  else if w = 0b1000#4 then some .openLoop
  else none

/-- A finite binary32 datum as a signed number of units of 2^-149; none for an infinity or a NaN. -/
def Sys2Proof.Certificates.units (x : Binary32) : Option Int :=
  match floatVal binary32Format x.toNat with
  | .fin neg mag => some (signedMag neg mag)
  | .inf _ => none
  | .nan => none

/-- Calls of an operation, each on inputs presented and sampled for that call. -/
def Sys2Proof.Certificates.callsOn (i : Instr) : List In → State → Result
  | [], s => .next s
  | x :: rest, s => andThen (andThen (exec .sample { s with ports := x }) (exec i)) (Sys2Proof.Certificates.callsOn i rest)

/-- Whether PHASE and then PWM drive the output when the sampled counter is `n`. -/
def Sys2Proof.Certificates.drivenAt (s : State) (n : Nat) : Bool :=
  match andThen (exec .phase { s with latch := { s.latch with cnt := n } }) (exec .pwm) with
  | .next t => t.pwmOut
  | .fault _ => false
  | .refused _ => false

/-- The bound R128 argues for: the pulses counted in the current window are no more than the ticks that passed in it,
and fewer than a window has. -/
def Sys2Proof.Certificates.AccInv (s : State) : Prop :=
  s.tach.acc + s.tach.win * (s.cfg.clockFreq / 2) ≤ s.latch.cnt ∧ s.tach.acc < s.cfg.clockFreq / 2

open Sys2Proof.Certificates

/-! ### RESET -/

/-- R281, R282, R283: RESET completes from every state, every register takes its reset value (PIDState +0 in the
run's NUM, which is the pattern 0x00000000 in binary32), the output ports are low and the run is a fresh one; the
counter, the pins and the configuration are not touched. The whole next state is in ResetHasPriority. -/
def Obligations.ResetZeroesEveryRegister : Prop :=
  ∀ s : State, ∃ t, exec .reset s = .next t ∧
    t.duty = 0#7 ∧ t.ontime = 0#7 ∧ t.rps = 0 ∧ t.mode = .off ∧ t.pidRst = false ∧ t.pwmOut = false ∧
    t.pid = .ofRegs s.cfg.num (zeroPid s.cfg.num.num) ∧
    (s.cfg.num = .binary32 →
      t.pid = .binary32 { integral := 0x00000000#32, prevErr := 0x00000000#32, internal := 0x00000000#32 }) ∧
    t.tach.win = 0 ∧ t.tach.prev = false ∧ t.tach.prev2 = false ∧ t.tach.acc = 0 ∧
    t.qPrevA = false ∧ t.ramp.dir = false ∧ t.ramp.elapsed = 0 ∧
    (∀ p, readOut t.out p = 0) ∧ t.faulted = false ∧ t.ports = s.ports ∧ t.cfg = s.cfg

/-- R280, R254 (1): with RST = 1 the step is RESET whatever the ports present, on a faulted run and with a degenerate
PWM_FREQ too, and holding RST is the same as one RESET. The last clause, the whole next state, rests on the model's
choices beside R281 to R283: RESET leaves the model's fields `latch`, `wires`, `feed` and `draws` alone
(assumptions 3 and 13). -/
def Obligations.ResetHasPriority : Prop :=
  ∀ (s : State) (i i' : In), s.cfg.wf = true →
    ∃ t, step (withPlatform s true i) = .next t ∧ exec .reset s = .next t ∧
      step (withPlatform s true i') = .next t ∧ step (withPlatform t true i') = .next t ∧
      t = { State.reset with
        pid := .ofRegs s.cfg.num (zeroPid s.cfg.num.num), ports := s.ports, latch := s.latch, wires := s.wires,
        cfg := s.cfg, feed := s.feed, draws := s.draws }

/-! ### PHASE and PWM -/

/-- R100, R101: a legal PWM_FREQ gives a period of 1 to CLOCK_FREQ ticks and PHASE is `100 * (CNT mod PERIOD) div
PERIOD`, at most 99; a degenerate one raises DivideFault with that PWM_FREQ. -/
def Obligations.PhaseIsScaledCounterRemainder : Prop :=
  ∀ s : State, s.cfg.wf = true →
    (1 ≤ s.latch.pwmFreq ∧ s.latch.pwmFreq ≤ s.cfg.clockFreq →
      1 ≤ s.cfg.clockFreq / s.latch.pwmFreq ∧ s.cfg.clockFreq / s.latch.pwmFreq ≤ s.cfg.clockFreq ∧
      ∃ ph, ph = 100 * (s.latch.cnt % (s.cfg.clockFreq / s.latch.pwmFreq)) /
          (s.cfg.clockFreq / s.latch.pwmFreq) ∧ ph ≤ 99 ∧
        exec .phase s = .next { s with wires := { s.wires with phase := ph } }) ∧
    (s.latch.pwmFreq = 0 ∨ s.cfg.clockFreq < s.latch.pwmFreq →
      exec .phase s = .fault (.divideFault s.latch.pwmFreq))

/-- R102: PHASE is in [0,100) whenever it is computed, and a counter one PERIOD further on, short of the wrap, gives
the same PHASE. -/
def Obligations.PhaseIsPeriodic : Prop :=
  ∀ s t : State, exec .phase s = .next t →
    t.wires.phase < 100 ∧
    (s.latch.cnt + s.cfg.clockFreq / s.latch.pwmFreq < 2 ^ s.cfg.cntW →
      ∃ u, exec .phase { s with latch := { s.latch with
          cnt := s.latch.cnt + s.cfg.clockFreq / s.latch.pwmFreq } } = .next u ∧
        u.wires.phase = t.wires.phase)

/-- R105, R106: PWM_OUT and PWM_PIN are 1 exactly when PHASE < ONTIME, and nothing else changes. -/
def Obligations.PwmComparesPhaseWithOntime : Prop :=
  ∀ s : State, exec .pwm s = .next
    { s with
      pwmOut := decide (s.wires.phase < s.ontime.toNat)
      out := { s.out with pwmPin := decide (s.wires.phase < s.ontime.toNat) } }

/-- R107 (the spec's own derivation): when PERIOD is a multiple of 100, exactly ONTIME hundredths of the counter
values of one period drive the output. -/
def Obligations.RealisedDutyIsOntimeHundredths : Prop :=
  ∀ (s : State) (k : Nat), s.cfg.wf = true → EnvFreq s.cfg s.latch → s.ontime.toNat ≤ 100 →
    s.cfg.clockFreq / s.latch.pwmFreq = 100 * k →
    ((List.range (100 * k)).filter (drivenAt s)).length = s.ontime.toNat * k

/-! ### Tachometer -/

/-- R120 to R125: the window index is `CNT div (CLOCK_FREQ div 2)`; on a change RPS takes T.ACC and T.ACC is zeroed,
otherwise the samples 0, 1, 1 count one pulse; the history and T.WIN move in every call. -/
def Obligations.TachCountsFilteredPulses : Prop :=
  ∀ (s : State) (g : BitVec 2), s.cfg.wf = true →
    exec (.tach g) s = .next
      { s with
        rps :=
          if s.latch.cnt / (s.cfg.clockFreq / 2) ≠ s.tach.win then s.tach.acc % 2 ^ s.cfg.accW else s.rps
        tach :=
          { win := s.latch.cnt / (s.cfg.clockFreq / 2) % 2 ^ s.cfg.winW
            prev := s.latch.tachIn
            prev2 := s.tach.prev
            acc :=
              if s.latch.cnt / (s.cfg.clockFreq / 2) ≠ s.tach.win then 0
              else if s.latch.tachIn = true ∧ s.tach.prev = true ∧ s.tach.prev ≠ s.tach.prev2 then
                (s.tach.acc + 1) % 2 ^ s.cfg.accW
              else s.tach.acc } }

/-- R129: TACH_SKIP has no effect. -/
def Obligations.TachSkipChangesNothing : Prop := ∀ s : State, exec .tachSkip s = .next s

/-- R130: MEASURED is `min(50, RPS*50 div MAX_RPS)`, the product at full precision. -/
def Obligations.MeasuredIsClampedQuotient : Prop :=
  ∀ s : State, s.cfg.wf = true →
    exec .measured s = .next
      { s with wires := { s.wires with measured := min 50 (s.rps * 50 / s.cfg.maxRps) } }

/-- R131 (the spec's own derivation), over calls whose counter values all lie in the window T.WIN holds, each call
with inputs of its own: after a 0-sample, a one-sample pulse 1, 0 is not counted, and two or more 1-samples are counted
once however many they are; so are they after a low gap of one sample, whatever came before it; and a pulse that
already counted, or was already under way when it was first seen, is not counted again while it stays 1. -/
def Obligations.TachFiltersGlitchesAndCountsOnce : Prop :=
  ∀ (s : State) (g : BitVec 2) (xs : List In), s.cfg.wf = true → s.tach.win < 2 ^ s.cfg.winW →
    (∀ x ∈ xs, window s.cfg x = s.tach.win) →
    (s.tach.prev = false → xs.map (·.tachIn) = [true, false] →
      ∃ t, callsOn (.tach g) xs s = .next t ∧ t.tach.acc = s.tach.acc ∧ t.rps = s.rps) ∧
    (s.tach.prev = false → 2 ≤ xs.length → (∀ x ∈ xs, x.tachIn = true) →
      ∃ t, callsOn (.tach g) xs s = .next t ∧ t.tach.acc = (s.tach.acc + 1) % 2 ^ s.cfg.accW ∧ t.rps = s.rps) ∧
    (∀ z, window s.cfg z = s.tach.win → z.tachIn = false → 2 ≤ xs.length → (∀ x ∈ xs, x.tachIn = true) →
      ∃ t, callsOn (.tach g) (z :: xs) s = .next t ∧ t.tach.acc = (s.tach.acc + 1) % 2 ^ s.cfg.accW ∧
        t.rps = s.rps) ∧
    (s.tach.prev = true → s.tach.prev2 = true → (∀ x ∈ xs, x.tachIn = true) →
      ∃ t, callsOn (.tach g) xs s = .next t ∧ t.tach.acc = s.tach.acc ∧ t.rps = s.rps)

/-- R132 (the spec's own derivation): an iteration that does not change the mode and whose window index is the one
T.WIN holds leaves RPS unchanged. -/
def Obligations.RpsHoldsWithinAWindow : Prop :=
  ∀ (s t : State) (i : In), exec (.iter i) s = .next t → t.mode = s.mode →
    window s.cfg i = s.tach.win → t.rps = s.rps

/-- R128: when time passes between iterations and CNT does not wrap (ENV-MONO), the pulses of the current window stay
below the ticks of a window, so T.ACC never wraps where ACC_W holds that many. -/
def Obligations.AccumulatorBoundKeptUnderMonotoneCounter : Prop :=
  ∀ (s t : State) (i : In), AccInv s → EnvMono false true s.latch (sampleIn s.cfg i) → exec (.iter i) s = .next t →
    AccInv t

/-! ### Duty-cycle sources -/

/-- R140 to R144: on a transition of A the step is added when A differs from B and subtracted otherwise, the result
is clamped to 0..100 and stored, and Q.PREV_A takes the sampled A in every call. -/
def Obligations.QuadStepsDutyByResp : Prop :=
  ∀ (s : State) (b : Bool) (d : Int), s.cfg.wf = true →
    d = (if s.latch.quadA ≠ s.qPrevA then
          (if s.latch.quadA ≠ s.latch.quadB then (s.duty.toNat : Int) + s.latch.resp
           else (s.duty.toNat : Int) - s.latch.resp)
         else (s.duty.toNat : Int)) →
    exec (.quad b) s = .next
      { s with qPrevA := s.latch.quadA, duty := BitVec.ofNat 7 (max 0 (min 100 d)).toNat }

/-- R147: one turn of the knob through 10, 11, 01, 00 raises DUTY by twice RESP, one the other way lowers it by twice
RESP, when the clamp does not act. -/
def Obligations.QuadTurnMovesTwoSteps : Prop :=
  ∀ (s : State) (b : Bool) (x : In), s.cfg.wf = true → s.qPrevA = false → s.duty.toNat ≤ 100 →
    (s.duty.toNat + 2 * (sampleIn s.cfg x).resp ≤ 100 →
      ∃ t, callsOn (.quad b)
          [{ x with quadA := true, quadB := false }, { x with quadA := true, quadB := true },
           { x with quadA := false, quadB := true }, { x with quadA := false, quadB := false }] s = .next t ∧
        t.duty.toNat = s.duty.toNat + 2 * (sampleIn s.cfg x).resp) ∧
    (2 * (sampleIn s.cfg x).resp ≤ s.duty.toNat →
      ∃ t, callsOn (.quad b)
          [{ x with quadA := false, quadB := true }, { x with quadA := true, quadB := true },
           { x with quadA := true, quadB := false }, { x with quadA := false, quadB := false }] s = .next t ∧
        t.duty.toNat = s.duty.toNat - 2 * (sampleIn s.cfg x).resp)

/-- R150 to R154: count, step at `1000 * RAMP_MULT`, flip on the unclamped value, clamp. -/
def Obligations.RampCountsStepsFlipsClamps : Prop :=
  ∀ (s : State) (d : Int), s.cfg.wf = true →
    d = (if 1000 * s.latch.rampMult ≤ s.ramp.elapsed + 1 then
          (if s.ramp.dir = false then (s.duty.toNat : Int) + 1 else (s.duty.toNat : Int) - 1)
         else (s.duty.toNat : Int)) →
    exec .ramp s = .next
      { s with
        duty := BitVec.ofNat 7 (max 0 (min 100 d)).toNat
        ramp :=
          { dir := if 100 ≤ d then true else if d ≤ 0 then false else s.ramp.dir
            elapsed :=
              if 1000 * s.latch.rampMult ≤ s.ramp.elapsed + 1 then 0
              else (s.ramp.elapsed + 1) % 2 ^ s.cfg.elapsedW } }

/-- R155 (the spec's own derivation): from DUTY 0, rising, nothing elapsed and a constant multiplier m of at least 1,
after n calls of RAMP, for every n: with j = n div (1000*m) mod 200, DUTY is j on the way up (j up to 100) and 200 - j
on the way down, the direction is falling exactly for j in 100..199, and RAMP.ELAPSED is n mod (1000*m). So DUTY is k
at call 1000*m*k for k up to 100, 99 at call 101,000*m, 0 and rising at call 200,000*m, and the pattern repeats. -/
def Obligations.RampSweepsUpAndDownForEver : Prop :=
  ∀ (s : State) (m n j : Nat), s.cfg.wf = true → s.duty = 0#7 → s.ramp = { dir := false, elapsed := 0 } →
    m = s.latch.rampMult → 1 ≤ m → 1000 * m ≤ 2 ^ s.cfg.elapsedW → j = n / (1000 * m) % 200 →
    runOps (List.replicate n .ramp) s = .next
      { s with
        duty := BitVec.ofNat 7 (if j ≤ 100 then j else 200 - j)
        ramp := { dir := decide (100 ≤ j), elapsed := n % (1000 * m) } }

/-- R158 (the spec's own derivation), with the widths R8 gives: whatever RAMP.ELAPSED held, after a RAMP call on a
sampled 8-bit multiplier it is 0 or one more than before, and below 255,000. -/
def Obligations.RampElapsedStaysBelow255000 : Prop :=
  ∀ s t : State, s.cfg.wf = true → s.cfg.multW = 8 → s.cfg.elapsedW = 32 →
    andThen (exec .sample s) (exec .ramp) = .next t →
    t.ramp.elapsed < 255000 ∧ (t.ramp.elapsed = 0 ∨ t.ramp.elapsed = s.ramp.elapsed + 1)

/-- R21, R144, R154: whatever DUTY held, both sources leave it in 0..100. -/
def Obligations.DutySourcesClampEveryWrite : Prop :=
  ∀ (s t : State) (b : Bool), s.cfg.wf = true → exec (.quad b) s = .next t ∨ exec .ramp s = .next t →
    t.duty.toNat ≤ 100

/-! ### PID -/

/-- R185: DESIRED is `DUTY div 2`. -/
def Obligations.DesiredIsHalfOfDuty : Prop :=
  ∀ s : State, exec .desired s = .next { s with wires := { s.wires with desired := s.duty.toNat / 2 } }

/-- R170, R174 to R177 for the run's NUM: with no reset pending, the law in its order of evaluation, the clamp by NUM
comparisons, ONTIME the floor, and nothing else written. On this hardware the floor exists in every reachable state
(PidRunsInsideTheInvariant); where it does not, PidStopsWithoutAFloor says what happens. -/
def Obligations.PidRunsTheControlLaw : Prop :=
  ∀ (s : State) (k : NumKind) (p : PidRegs k.Carrier) (e i dv u y yc : k.Carrier) (on : Int), s.pidRst = false →
    s.cfg.num = k → s.pid = .ofRegs k p →
    e = k.num.ofInt ((s.wires.desired : Int) - (s.wires.measured : Int)) →
    i = k.num.add p.integral e →
    dv = k.num.sub e p.prevErr →
    u = k.num.add (k.num.add (k.num.mul k.num.kp e) (k.num.mul k.num.ki i)) (k.num.mul k.num.kd dv) →
    y = k.num.add p.internal u →
    yc = (if k.num.lt k.num.hundred y then k.num.hundred else if k.num.lt y k.num.zero then k.num.zero else y) →
    k.num.floor yc = some on →
    exec .pid s = .next
      { s with pid := .ofRegs k { integral := i, prevErr := e, internal := yc }, ontime := BitVec.ofInt 7 on }

/-- R173: with a reset pending PIDState becomes +0 and PID_RST is cleared; ONTIME is 0 and the law does not run, or,
under PID_RESET_COMPUTES, the call goes on as a call from the zeroed state. -/
def Obligations.PidResetIsSingleShot : Prop :=
  ∀ s : State, s.pidRst = true →
    (s.cfg.pidResetComputes = false →
      exec .pid s = .next
        { s with pid := .ofRegs s.cfg.num (zeroPid s.cfg.num.num), pidRst := false, ontime := 0#7 }) ∧
    (s.cfg.pidResetComputes = true →
      exec .pid s = exec .pid { s with pid := .ofRegs s.cfg.num (zeroPid s.cfg.num.num), pidRst := false })

/-- R180 (the spec's own derivation): under either reading, and in every NUM, the reset call with DESIRED = MEASURED
writes ONTIME 0 and clears the flag. -/
def Obligations.PidResetCallWithoutErrorGivesZero : Prop :=
  ∀ s : State, s.pidRst = true → s.wires.desired = s.wires.measured →
    ∃ t, exec .pid s = .next t ∧ t.ontime = 0#7 ∧ t.pidRst = false

/-- R181 (the spec's own derivation), for NUM = binary32: inside the invariant the law's result exists and is in
0..100. -/
def Obligations.PidRunsInsideTheInvariant : Prop :=
  ∀ s : State, Inv s → ∃ t q, exec .pid s = .next t ∧ t.ontime.toNat ≤ 100 ∧ t.pid = .binary32 q ∧ PidInv q

/-- R181, V6 (the model's choice, assumption 7): a value with no floor, which needs a NaN or an infinity forced into
PIDState, is treated as a fault of the test; and PIDState that holds data of another NUM than the run's is refused. -/
def Obligations.PidStopsWithoutAFloor : Prop :=
  ∀ s : State, s.pidRst = false →
    (∀ p, s.pid = .ofRegs s.cfg.num p → pidLaw s.cfg.num.num p s.wires.desired s.wires.measured = none →
      exec .pid s = .fault .pidNotANumber) ∧
    ((∀ p, s.pid ≠ .ofRegs s.cfg.num p) → exec .pid s = .refused .pidStateOfAnotherNum)

/-- R172, R171: the binary32 gains and literals are the spec's patterns, the gains are 13743895/2^39, 8646911/2^59
and 13421773/2^24, and the binary64 gains are the spec's patterns. -/
def Obligations.GainPatternsHaveTheirExactValues : Prop :=
  (binary32.kp = 0x37D1B717#32 ∧ binary32.ki = 0x2D83F0FF#32 ∧ binary32.kd = 0x3F4CCCCD#32 ∧
    binary32.hundred = 0x42C80000#32 ∧ binary32.zero = 0x00000000#32) ∧
  (units binary32.kp = some (13743895 * 2 ^ (149 - 39)) ∧ units binary32.ki = some (8646911 * 2 ^ (149 - 59)) ∧
    units binary32.kd = some (13421773 * 2 ^ (149 - 24))) ∧
  (binary64.kp = 0x3EFA36E2EB1C432D#64 ∧ binary64.ki = 0x3DB07E1FE91B0B70#64 ∧ binary64.kd = 0x3FE999999999999A#64)

/-- R171, D31: `int_to_num` is exact on -2^24..2^24, and `num_floor` of a finite value not below 0 and at most 100 is
the largest integer not above it. -/
def Obligations.ConversionsAreExact : Prop :=
  (∀ k : Int, -2 ^ 24 ≤ k → k ≤ 2 ^ 24 → units (binary32.ofInt k) = some (k * 2 ^ 149)) ∧
    (∀ (x : Binary32) (v : Int), units x = some v → 0 ≤ v → v ≤ 100 * 2 ^ 149 →
      ∃ n : Int, binary32.floor x = some n ∧ n * 2 ^ 149 ≤ v ∧ v < (n + 1) * 2 ^ 149)

/-- R171: a finite sum or difference is the binary32 datum nearest the exact one, and the even one of two that are
equally near. -/
def Obligations.SumsRoundToNearestEven : Prop :=
  ∀ (a b x : Binary32) (va vb vx vr : Int), units a = some va → units b = some vb → units x = some vx →
    (units (binary32.add a b) = some vr →
      |vr - (va + vb)| ≤ |vx - (va + vb)| ∧
      (vx ≠ vr → |vr - (va + vb)| = |vx - (va + vb)| → (binary32.add a b).toNat % 2 = 0)) ∧
    (units (binary32.sub a b) = some vr →
      |vr - (va - vb)| ≤ |vx - (va - vb)| ∧
      (vx ≠ vr → |vr - (va - vb)| = |vx - (va - vb)| → (binary32.sub a b).toNat % 2 = 0))

/-- R171: a finite product is the binary32 datum nearest the exact one, and the even one of two that are equally
near. -/
def Obligations.ProductsRoundToNearestEven : Prop :=
  ∀ (a b x : Binary32) (va vb vx vr : Int), units a = some va → units b = some vb → units x = some vx →
    units (binary32.mul a b) = some vr →
    |vr * 2 ^ 149 - va * vb| ≤ |vx * 2 ^ 149 - va * vb| ∧
      (vx ≠ vr → |vr * 2 ^ 149 - va * vb| = |vx * 2 ^ 149 - va * vb| → (binary32.mul a b).toNat % 2 = 0)

/-! ### Mode State Machine -/

/-- R201, R207: no event and an unrecognised word change no register. -/
def Obligations.NoEventAndUnrecognisedWordsChangeNothing : Prop :=
  ∀ (s : State) (w : BitVec 4), exec .selNone s = .next s ∧ exec (.selUnrec w) s = .next s

/-- R202, R210: SEL_OFF writes MODE alone. -/
def Obligations.SelOffWritesModeAlone : Prop := ∀ s : State, exec .selOff s = .next { s with mode := .off }

/-- R203, R206: from another mode SEL_RAMP and SEL_OPEN enter theirs and zero DUTY and RPS; from the same mode nothing
changes. -/
def Obligations.SelRampAndSelOpenZeroDutyAndRps : Prop :=
  ∀ s : State,
    exec .selRamp s = .next (if s.mode = .ramp then s else { s with mode := .ramp, duty := 0#7, rps := 0 }) ∧
    exec .selOpen s = .next (if s.mode = .openLoop then s else { s with mode := .openLoop, duty := 0#7, rps := 0 })

/-- R204: from another mode SEL_CLOSED enters ClosedLoop, zeroes DUTY and RPS and raises PID_RST; in ClosedLoop
nothing changes. -/
def Obligations.SelClosedRaisesPidReset : Prop :=
  ∀ s : State,
    exec .selClosed s = .next
      (if s.mode = .closedLoop then s
       else { s with mode := .closedLoop, duty := 0#7, rps := 0, pidRst := true })

/-- R26, R208: after an iteration MODE is the one a one-hot SEL word names, and the old one for every other word; a
mode is left by an event only. -/
def Obligations.ModeChangesOnlyByASelectorEvent : Prop :=
  ∀ (s t : State) (i : In), exec (.iter i) s = .next t → t.mode = (requestedMode i.sel).getD s.mode

/-- R205, R83: an event that names the current mode has the effect of no event: the two iterations end the same but
for the sampled SEL word itself. -/
def Obligations.SameModeEventIsNoEvent : Prop :=
  ∀ (s t : State) (i : In), requestedMode i.sel = some s.mode →
    exec (.iter { i with sel := 0b0000#4 }) s = .next t → exec (.iter i) s = .next { t with ports := i, latch := sampleIn s.cfg i }

/-- R186 (the spec's own derivation): outside ClosedLoop an iteration neither reads nor writes PIDState: with any other
PIDState it ends the same but for PIDState, and on entry to ClosedLoop PIDState ends the same too. -/
def Obligations.PidStateInvisibleOutsideClosedLoop : Prop :=
  ∀ (s t : State) (i : In) (p : PidState), s.mode ≠ .closedLoop → exec (.iter i) s = .next t →
    ∃ t', exec (.iter i) { s with pid := p } = .next t' ∧ t' = { t with pid := t'.pid } ∧
      (t.mode = .closedLoop → t'.pid = t.pid) ∧ (t.mode ≠ .closedLoop → t.pid = s.pid ∧ t'.pid = p)

/-! ### The iteration -/

/-- R221, R62: SAMPLE latches all nine ports, every read then returns what the port presents at its width, and no later
operation of the iteration changes what a read returns. -/
def Obligations.SampleLatchesEveryPort : Prop :=
  (∀ s : State, exec .sample s = .next { s with latch := sampleIn s.cfg s.ports } ∧
    ∀ (t : State) (p : InPort), exec .sample s = .next t →
      memRead t p = readIn s.ports p % 2 ^ inWidth s.cfg p) ∧
  (∀ (i : Instr) (s t : State) (p : InPort), elementaryOp i → i.mnemonic ≠ .SAMPLE → exec i s = .next t →
    memRead t p = memRead s p)

/-- R223, R224: SRC_OFF writes ONTIME with 0, DIRECT with DUTY. -/
def Obligations.SrcOffAndDirectWriteOntime : Prop :=
  ∀ (s : State) (b : Bool),
    exec .srcOff s = .next { s with ontime := 0#7 } ∧ exec (.direct b) s = .next { s with ontime := s.duty }

/-- R232: OUT drives the seven display ports, each at its width, and leaves PWM_PIN and every register alone. -/
def Obligations.OutDrivesTheSevenDisplayPorts : Prop :=
  ∀ s : State, exec .out s = .next
    { s with
      out :=
        { pwmPin := s.out.pwmPin
          oMode := match s.mode with
            | .off => 0b00#2
            | .ramp => 0b01#2
            | .closedLoop => 0b10#2
            | .openLoop => 0b11#2
          oAlt := s.latch.altInfo
          oDuty := s.duty
          oRps := s.rps % 2 ^ s.cfg.accW
          oDesired := BitVec.ofNat 6 (s.duty.toNat / 2)
          oOntime := s.ontime
          oFreq := s.latch.pwmFreq % 2 ^ s.cfg.freqW } }

/-- R232, R63: after an iteration the ports show the state the iteration left, and the frequency and the
alternate-info flag of the inputs. The registers' widths are a premise (R11), kept by every step
(StepKeepsTheInvariant). -/
def Obligations.DisplayShowsTheIterationsFinalState : Prop :=
  ∀ (s t : State) (i : In), Fits s → exec (.iter i) s = .next t →
    t.out.pwmPin = t.pwmOut ∧ t.out.oMode = modeBits t.mode ∧ t.out.oAlt = i.altInfo ∧ t.out.oDuty = t.duty ∧
      t.out.oRps = t.rps ∧ t.out.oDesired.toNat = t.duty.toNat / 2 ∧ t.out.oOntime = t.ontime ∧
      t.out.oFreq = (sampleIn s.cfg i).pwmFreq

/-- R220: ITER is the sequence of its operations: inputs presented, SAMPLE, DivideFault on a degenerate PWM_FREQ,
otherwise the operation the SEL word decodes to, PHASE, the duty-cycle source the MODE word decodes to, if any, DESIRED, MEASURED, the on-time source, PWM, the
operation the GATE word decodes to, OUT. -/
def Obligations.IterIsTheSequenceOfItsOperations : Prop :=
  ∀ (s : State) (i : In), s.cfg.wf = true → s.faulted = false →
    exec (.iter i) s =
      andThen (exec .sample { s with ports := i }) fun s =>
      if s.latch.pwmFreq = 0 ∨ s.cfg.clockFreq < s.latch.pwmFreq then
        .fault (.divideFault s.latch.pwmFreq)
      else
      andThen (exec (decodeSel s.latch.sel) s) fun s =>
      andThen (exec .phase s) fun s =>
      andThen (match decodeDutySource (modeBits s.mode) with
        | some op => exec op s
        | none => .next s) fun s =>
      andThen (exec .desired s) fun s =>
      andThen (exec .measured s) fun s =>
      andThen (exec (decodeOnTimeSource (modeBits s.mode)) s) fun s =>
      andThen (exec .pwm s) fun s =>
      andThen (exec (decodeGate (gateWord s)) s) fun s =>
      exec .out s

/-- From every state inside the invariant, on a run that is not faulted and with a legal PWM_FREQ, ITER completes
(R14, R220: there is no outcome but next and DivideFault), inside the invariant, with the presented inputs latched. -/
def Obligations.IterCompletesInsideTheInvariant : Prop :=
  ∀ (s : State) (i : In), Inv s → s.faulted = false → EnvFreq s.cfg (sampleIn s.cfg i) →
    ∃ t, exec (.iter i) s = .next t ∧ Inv t ∧ t.latch = sampleIn s.cfg i ∧ t.faulted = false

/-- R24, R39 (a): an iteration reads nothing of the sampled inputs, port levels and passing quantities an earlier one
left behind. -/
def Obligations.IterReadsNoEarlierInputsOrWires : Prop :=
  ∀ (s : State) (i p l : In) (w : Wires),
    exec (.iter i) { s with ports := p, latch := l, wires := w } = exec (.iter i) s

/-- R27: PID_RST is 0 at the end of every iteration that starts with it 0. -/
def Obligations.PidResetConsumedInTheSameIteration : Prop :=
  ∀ (s t : State) (i : In), s.pidRst = false → exec (.iter i) s = .next t → t.pidRst = false

/-- R222, R223, R284: an iteration that ends in Off leaves DUTY as it was, ONTIME 0, the output idle, and the
tachometer has sampled. -/
def Obligations.OffDrivesNothingAndKeepsMeasuring : Prop :=
  ∀ (s t : State) (i : In), exec (.iter i) s = .next t → t.mode = .off →
    t.duty = s.duty ∧ t.ontime = 0#7 ∧ t.pwmOut = false ∧ t.out.pwmPin = false ∧
      t.tach.prev = i.tachIn ∧ t.tach.prev2 = s.tach.prev ∧
      t.tach.win = window s.cfg i % 2 ^ s.cfg.winW

/-- R34, R39 (a), R148, R157: the private records of components an iteration does not call keep their values. -/
def Obligations.UncalledComponentsKeepTheirRecords : Prop :=
  ∀ (s t : State) (i : In), exec (.iter i) s = .next t →
    (t.mode = .off ∨ t.mode = .ramp → t.qPrevA = s.qPrevA) ∧
    (t.mode ≠ .ramp → t.ramp = s.ramp) ∧
    (t.mode ≠ .closedLoop → t.pid = s.pid) ∧
    (t.pwmOut = false ∧ t.ontime ≠ 0#7 → t.tach = s.tach)

/-- R228: after PWM the GATE word selects TACH when PWM_OUT is 1 or ONTIME is 0 and TACH_SKIP otherwise, which is when
ONTIME is not 0 and PHASE is not below it; R86 (the spec's own derivation): it is never 11. -/
def Obligations.GateOpensWhenDrivenOrIdle : Prop :=
  ∀ s t : State, exec .pwm s = .next t →
    decodeGate (gateWord t) = (if t.pwmOut = true ∨ t.ontime = 0#7 then .tach (gateWord t) else .tachSkip) ∧
      gateWord t ≠ 0b11#2 ∧ (gateWord t = 0b00#2 ↔ s.ontime ≠ 0#7 ∧ s.ontime.toNat ≤ s.wires.phase)

/-! ### Ownership -/

/-- R37: the ownership table of registers, over every operation of an iteration. -/
def Obligations.OnlyTheOwnerWritesARegister : Prop :=
  ∀ (i : Instr) (s t : State), elementaryOp i → exec i s = .next t →
    (i.mnemonic ≠ .PID → t.pid = s.pid) ∧
    (i.mnemonic ≠ .TACH → t.tach = s.tach) ∧
    (i.mnemonic ≠ .QUAD → t.qPrevA = s.qPrevA) ∧
    (i.mnemonic ≠ .RAMP → t.ramp = s.ramp) ∧
    (i.mnemonic ≠ .PWM → t.pwmOut = s.pwmOut ∧ t.out.pwmPin = s.out.pwmPin) ∧
    (i.mnemonic ∉ [Mnemonic.SEL_OFF, .SEL_RAMP, .SEL_CLOSED, .SEL_OPEN] → t.mode = s.mode) ∧
    (t.pidRst ≠ s.pidRst →
      (i.mnemonic = .SEL_CLOSED ∧ t.pidRst = true) ∨ (i.mnemonic = .PID ∧ t.pidRst = false)) ∧
    (i.mnemonic ∉ [Mnemonic.SEL_RAMP, .SEL_CLOSED, .SEL_OPEN, .RAMP, .QUAD] → t.duty = s.duty) ∧
    (i.mnemonic ∉ [Mnemonic.SRC_OFF, .DIRECT, .PID] → t.ontime = s.ontime) ∧
    (i.mnemonic ∉ [Mnemonic.SEL_RAMP, .SEL_CLOSED, .SEL_OPEN, .TACH] → t.rps = s.rps)

/-- R63, R68: of the output ports only PWM writes PWM_PIN and only OUT the other seven; every other port reads as
before after every operation of an iteration. -/
def Obligations.OnlyPwmAndOutWriteThePorts : Prop :=
  ∀ (i : Instr) (s t : State) (p : OutPort), elementaryOp i → exec i s = .next t →
    ((p = .pwmPin → i.mnemonic ≠ .PWM) ∧ (p ≠ .pwmPin → i.mnemonic ≠ .OUT)) →
    readOut t.out p = readOut s.out p

/-- R72: no step changes the configuration. -/
def Obligations.ConfigurationIsFixedForTheRun : Prop := ∀ s t : State, step s = .next t → t.cfg = s.cfg

/-! ### Faults -/

/-- R250: on a run that is not faulted ITER raises DivideFault, with the offending PWM_FREQ and cause code 1, exactly
when PWM_FREQ is 0 or above CLOCK_FREQ. -/
def Obligations.DivideFaultExactlyOnDegenerateFreq : Prop :=
  ∀ (s : State) (i : In) (f : Nat), s.cfg.wf = true → s.faulted = false →
    (exec (.iter i) s = .fault (.divideFault f) ↔
      f = (sampleIn s.cfg i).pwmFreq ∧ (f = 0 ∨ s.cfg.clockFreq < f)) ∧
    (Fault.divideFault f).causeCode = some 1

/-- R230, R255: a faulting iteration writes no register and no output port; the run rests in the state before it,
marked, and the presented inputs are lost. -/
def Obligations.FaultingIterationWritesNothing : Prop :=
  ∀ (s : State) (i : In), s.cfg.wf = true → s.faulted = false →
    ((sampleIn s.cfg i).pwmFreq = 0 ∨ s.cfg.clockFreq < (sampleIn s.cfg i).pwmFreq) →
    step (withPlatform s false i) = .fault (.divideFault (sampleIn s.cfg i).pwmFreq) ∧
      restAfter (withPlatform s false i) = { s with faulted := true }

/-- R256: from a faulted run RESET starts a fresh run from the reset state, and no other operation leaves the
condition. The model's choices beside it: an iteration of a faulted run, to which the spec gives no meaning, is the
named stop `runFaulted` (assumption 4), and RESET leaves `latch`, `wires`, `feed` and `draws` alone (assumptions 3 and
13). -/
def Obligations.OnlyResetLeavesAFaultedRun : Prop :=
  ∀ (s : State) (i : In), s.cfg.wf = true → s.faulted = true →
    exec (.iter i) s = .fault .runFaulted ∧
      exec .reset s = .next { State.reset with
        pid := .ofRegs s.cfg.num (zeroPid s.cfg.num.num), ports := s.ports, latch := s.latch, wires := s.wires,
        cfg := s.cfg, feed := s.feed, draws := s.draws } ∧
      ∀ (op : Instr) (t : State), exec op s = .next t → t.faulted = false → op = .reset

/-- R9 (the spec's own derivation): a configuration that breaks a constraint is refused, whatever is presented; so is
one that gives a constant the rules write out another value than R8's (the model's choice, assumption 6). R8: this
hardware's configuration has the listed values, whatever MAX_RPS and ITER_RATE are (KP, KI and KD are in
GainPatternsHaveTheirExactValues), and is not refused. -/
def Obligations.BadConfigurationIsRefused : Prop :=
  (∀ s : State, s.cfg.clockFreq < 2 ∨ s.cfg.maxRps = 0 ∨ 2 ^ s.cfg.cntW ≤ s.cfg.clockFreq ∨
      2 ^ s.cfg.freqW ≤ s.cfg.clockFreq ∨ s.cfg.rampUnit ≠ 1000 ∨ s.cfg.windowsPerSec ≠ 2 ∨
      s.cfg.phaseSteps ≠ 100 ∨ s.cfg.dutyMax ≠ 100 ∨ s.cfg.speedMax ≠ 50 →
    step s = .refused .configOutOfRange) ∧
  State.reset.cfg =
    { clockFreq := 50000000, cntW := 32, maxRps := State.reset.cfg.maxRps, num := .binary32,
      pidResetComputes := false, rampUnit := 1000, windowsPerSec := 2, phaseSteps := 100, dutyMax := 100,
      speedMax := 50, freqW := 32, respW := 8, multW := 8, accW := 32, winW := 32, elapsedW := 32,
      iterRate := State.reset.cfg.iterRate } ∧
  State.reset.cfg.wf = true

/-! ### The step and the decoder -/

/-- A step runs the instruction that what is presented asks for, on the state with that consumed: RST = 1 is RESET,
RST = 0 is ITER over the inputs, a decode word is what it decodes to, an iteration word being ITER over its fields, and
with nothing presented the step draws free values. A table word placed by `withFetchWord` is run first, on the state as
it was (the model's fetch, assumptions 1, 2 and 9). -/
def Obligations.StepRunsTheDecodedInstruction : Prop :=
  (∀ (s : State) (i : Instr), s.cfg.wf = true → (fetch s).1 = .ok i →
    step s = exec i (fetch s).2 ∧
    (∀ rst inp rest, s.feed = .platform rst inp :: rest →
      (fetch s).2 = { s with feed := rest } ∧ i = (if rst then .reset else .iter inp)) ∧
    (∀ e rest, s.feed = .bench e :: rest → (fetch s).2 = { s with feed := rest } ∧ decode e = .ok i ∧
      (∀ iw, e = ⟨.iteration, iw⟩ → i = .iter (unpackIw iw))) ∧
    (s.feed = [] → (fetch s).2 = { s with draws := s.draws + 1 } ∧
      i = (if Config.freeRst s.draws then .reset else .iter (Config.freeInputs s.draws)))) ∧
  (∀ (s : State) (nbits w : Nat) (i : Instr), s.cfg.wf = true → decodeTableWord nbits w = some i →
    step (s.withFetchWord nbits w) = exec i s)

/-- R81 to R91: words written out from the spec's encodings decode to their operations. -/
def Obligations.WrittenWordsDecode : Prop :=
  decode ⟨.pin, 0b1#88⟩ = .ok .reset ∧
  decode ⟨.iteration, 0x00850000003205000249F0#88⟩ = .ok (.iter
    { cnt := 150000, tachIn := true, quadA := false, quadB := true, sel := 0b0000#4, pwmFreq := 100,
      resp := 10, rampMult := 1, altInfo := false }) ∧
  decode ⟨.select, 0b0100#88⟩ = .ok .selClosed ∧ decode ⟨.select, 0b0110#88⟩ = .ok (.selUnrec 0b0110#4) ∧
  decode ⟨.dutySource, 0b01#88⟩ = .ok .ramp ∧ decode ⟨.dutySource, 0b11#88⟩ = .ok (.quad true) ∧
  decode ⟨.onTimeSource, 0b10#88⟩ = .ok .pid ∧ decode ⟨.onTimeSource, 0b01#88⟩ = .ok (.direct false) ∧
  decode ⟨.gate, 0b00#88⟩ = .ok .tachSkip ∧ decode ⟨.gate, 0b10#88⟩ = .ok (.tach 0b10#2) ∧
  decode ⟨.phase, 0#88⟩ = .ok .phase

/-- Every well-formed operation, with every operand at every value its encoding admits, is read back from its
encoding. -/
def Obligations.DecodeOfEncodeIsTheInstruction : Prop :=
  ∀ i : Instr, i.wf = true → decode (encode i) = .ok i

/-- Each word has one meaning: a word that decodes is the encoding of what it decodes to, which is well-formed. -/
def Obligations.EncodeOfDecodeIsTheWord : Prop :=
  ∀ (e : Encoded) (i : Instr), decode e = .ok i → i.wf = true ∧ encode i = e

/-- R94: a decoded operation's row is among those the table selects for the word, every selected row is what the word
decodes to at some slot of its format, and every SEL and GATE word selects one operation (R82, R86). -/
def Obligations.DecodeAgreesWithTheTable : Prop :=
  (∀ (e : Encoded) (i : Instr), decode e = .ok i →
    i.mnemonic ∈ rowsSelectedBy (slotFormat e.slot) e.word.toNat) ∧
  (∀ (f : Format) (w : BitVec 88) (m : Mnemonic), w.toNat < 2 ^ formatWidth f → m ∈ rowsSelectedBy f w.toNat →
    ∃ slot i, slotFormat slot = f ∧ decode ⟨slot, w⟩ = .ok i ∧ i.mnemonic = m) ∧
  (∀ w : BitVec 4, (rowsSelectedBy .sel w.toNat).length = 1) ∧
  (∀ w : BitVec 2, (rowsSelectedBy .gate w.toNat).length = 1)

/-! ### The invariant -/

/-- R38: the state after reset is inside the invariant, and inside the accumulator's bound. -/
def Obligations.ResetIsInsideTheInvariant : Prop := Inv State.reset ∧ AccInv State.reset

/-- R38, R181, R11: from every state inside the invariant, whatever is presented, a step that answers next answers a
state inside the invariant. -/
def Obligations.StepKeepsTheInvariant : Prop := ∀ s t : State, Inv s → step s = .next t → Inv t
end

