-- ==== Sys2Proof/Laws/State.lean ====
section
/-! SUPPORT. What each setter of Machine/Ops.lean does to each field of the state, one lemma per field per update,
and the fields of the reset state. -/

namespace Sys2Proof.Machine

variable (s : State)

/-! ### `setDuty` -/

@[simp] theorem setDuty_duty (v : Percent) : (s.setDuty v).duty = v := rfl
@[simp] theorem setDuty_ontime (v : Percent) : (s.setDuty v).ontime = s.ontime := rfl
@[simp] theorem setDuty_rps (v : Percent) : (s.setDuty v).rps = s.rps := rfl
@[simp] theorem setDuty_mode (v : Percent) : (s.setDuty v).mode = s.mode := rfl
@[simp] theorem setDuty_pidRst (v : Percent) : (s.setDuty v).pidRst = s.pidRst := rfl
@[simp] theorem setDuty_pwmOut (v : Percent) : (s.setDuty v).pwmOut = s.pwmOut := rfl
@[simp] theorem setDuty_pid (v : Percent) : (s.setDuty v).pid = s.pid := rfl
@[simp] theorem setDuty_tach (v : Percent) : (s.setDuty v).tach = s.tach := rfl
@[simp] theorem setDuty_qPrevA (v : Percent) : (s.setDuty v).qPrevA = s.qPrevA := rfl
@[simp] theorem setDuty_ramp (v : Percent) : (s.setDuty v).ramp = s.ramp := rfl
@[simp] theorem setDuty_out (v : Percent) : (s.setDuty v).out = s.out := rfl
@[simp] theorem setDuty_ports (v : Percent) : (s.setDuty v).ports = s.ports := rfl
@[simp] theorem setDuty_latch (v : Percent) : (s.setDuty v).latch = s.latch := rfl
@[simp] theorem setDuty_wires (v : Percent) : (s.setDuty v).wires = s.wires := rfl
@[simp] theorem setDuty_faulted (v : Percent) : (s.setDuty v).faulted = s.faulted := rfl
@[simp] theorem setDuty_cfg (v : Percent) : (s.setDuty v).cfg = s.cfg := rfl
@[simp] theorem setDuty_feed (v : Percent) : (s.setDuty v).feed = s.feed := rfl
@[simp] theorem setDuty_draws (v : Percent) : (s.setDuty v).draws = s.draws := rfl

/-! ### `setOntime` -/

@[simp] theorem setOntime_duty (v : Percent) : (s.setOntime v).duty = s.duty := rfl
@[simp] theorem setOntime_ontime (v : Percent) : (s.setOntime v).ontime = v := rfl
@[simp] theorem setOntime_rps (v : Percent) : (s.setOntime v).rps = s.rps := rfl
@[simp] theorem setOntime_mode (v : Percent) : (s.setOntime v).mode = s.mode := rfl
@[simp] theorem setOntime_pidRst (v : Percent) : (s.setOntime v).pidRst = s.pidRst := rfl
@[simp] theorem setOntime_pwmOut (v : Percent) : (s.setOntime v).pwmOut = s.pwmOut := rfl
@[simp] theorem setOntime_pid (v : Percent) : (s.setOntime v).pid = s.pid := rfl
@[simp] theorem setOntime_tach (v : Percent) : (s.setOntime v).tach = s.tach := rfl
@[simp] theorem setOntime_qPrevA (v : Percent) : (s.setOntime v).qPrevA = s.qPrevA := rfl
@[simp] theorem setOntime_ramp (v : Percent) : (s.setOntime v).ramp = s.ramp := rfl
@[simp] theorem setOntime_out (v : Percent) : (s.setOntime v).out = s.out := rfl
@[simp] theorem setOntime_ports (v : Percent) : (s.setOntime v).ports = s.ports := rfl
@[simp] theorem setOntime_latch (v : Percent) : (s.setOntime v).latch = s.latch := rfl
@[simp] theorem setOntime_wires (v : Percent) : (s.setOntime v).wires = s.wires := rfl
@[simp] theorem setOntime_faulted (v : Percent) : (s.setOntime v).faulted = s.faulted := rfl
@[simp] theorem setOntime_cfg (v : Percent) : (s.setOntime v).cfg = s.cfg := rfl
@[simp] theorem setOntime_feed (v : Percent) : (s.setOntime v).feed = s.feed := rfl
@[simp] theorem setOntime_draws (v : Percent) : (s.setOntime v).draws = s.draws := rfl

/-! ### `setRps` -/

@[simp] theorem setRps_duty (v : Nat) : (s.setRps v).duty = s.duty := rfl
@[simp] theorem setRps_ontime (v : Nat) : (s.setRps v).ontime = s.ontime := rfl
@[simp] theorem setRps_rps (v : Nat) : (s.setRps v).rps = v := rfl
@[simp] theorem setRps_mode (v : Nat) : (s.setRps v).mode = s.mode := rfl
@[simp] theorem setRps_pidRst (v : Nat) : (s.setRps v).pidRst = s.pidRst := rfl
@[simp] theorem setRps_pwmOut (v : Nat) : (s.setRps v).pwmOut = s.pwmOut := rfl
@[simp] theorem setRps_pid (v : Nat) : (s.setRps v).pid = s.pid := rfl
@[simp] theorem setRps_tach (v : Nat) : (s.setRps v).tach = s.tach := rfl
@[simp] theorem setRps_qPrevA (v : Nat) : (s.setRps v).qPrevA = s.qPrevA := rfl
@[simp] theorem setRps_ramp (v : Nat) : (s.setRps v).ramp = s.ramp := rfl
@[simp] theorem setRps_out (v : Nat) : (s.setRps v).out = s.out := rfl
@[simp] theorem setRps_ports (v : Nat) : (s.setRps v).ports = s.ports := rfl
@[simp] theorem setRps_latch (v : Nat) : (s.setRps v).latch = s.latch := rfl
@[simp] theorem setRps_wires (v : Nat) : (s.setRps v).wires = s.wires := rfl
@[simp] theorem setRps_faulted (v : Nat) : (s.setRps v).faulted = s.faulted := rfl
@[simp] theorem setRps_cfg (v : Nat) : (s.setRps v).cfg = s.cfg := rfl
@[simp] theorem setRps_feed (v : Nat) : (s.setRps v).feed = s.feed := rfl
@[simp] theorem setRps_draws (v : Nat) : (s.setRps v).draws = s.draws := rfl

/-! ### `setMode` -/

@[simp] theorem setMode_duty (v : Mode) : (s.setMode v).duty = s.duty := rfl
@[simp] theorem setMode_ontime (v : Mode) : (s.setMode v).ontime = s.ontime := rfl
@[simp] theorem setMode_rps (v : Mode) : (s.setMode v).rps = s.rps := rfl
@[simp] theorem setMode_mode (v : Mode) : (s.setMode v).mode = v := rfl
@[simp] theorem setMode_pidRst (v : Mode) : (s.setMode v).pidRst = s.pidRst := rfl
@[simp] theorem setMode_pwmOut (v : Mode) : (s.setMode v).pwmOut = s.pwmOut := rfl
@[simp] theorem setMode_pid (v : Mode) : (s.setMode v).pid = s.pid := rfl
@[simp] theorem setMode_tach (v : Mode) : (s.setMode v).tach = s.tach := rfl
@[simp] theorem setMode_qPrevA (v : Mode) : (s.setMode v).qPrevA = s.qPrevA := rfl
@[simp] theorem setMode_ramp (v : Mode) : (s.setMode v).ramp = s.ramp := rfl
@[simp] theorem setMode_out (v : Mode) : (s.setMode v).out = s.out := rfl
@[simp] theorem setMode_ports (v : Mode) : (s.setMode v).ports = s.ports := rfl
@[simp] theorem setMode_latch (v : Mode) : (s.setMode v).latch = s.latch := rfl
@[simp] theorem setMode_wires (v : Mode) : (s.setMode v).wires = s.wires := rfl
@[simp] theorem setMode_faulted (v : Mode) : (s.setMode v).faulted = s.faulted := rfl
@[simp] theorem setMode_cfg (v : Mode) : (s.setMode v).cfg = s.cfg := rfl
@[simp] theorem setMode_feed (v : Mode) : (s.setMode v).feed = s.feed := rfl
@[simp] theorem setMode_draws (v : Mode) : (s.setMode v).draws = s.draws := rfl

/-! ### `setPidRst` -/

@[simp] theorem setPidRst_duty (v : Bool) : (s.setPidRst v).duty = s.duty := rfl
@[simp] theorem setPidRst_ontime (v : Bool) : (s.setPidRst v).ontime = s.ontime := rfl
@[simp] theorem setPidRst_rps (v : Bool) : (s.setPidRst v).rps = s.rps := rfl
@[simp] theorem setPidRst_mode (v : Bool) : (s.setPidRst v).mode = s.mode := rfl
@[simp] theorem setPidRst_pidRst (v : Bool) : (s.setPidRst v).pidRst = v := rfl
@[simp] theorem setPidRst_pwmOut (v : Bool) : (s.setPidRst v).pwmOut = s.pwmOut := rfl
@[simp] theorem setPidRst_pid (v : Bool) : (s.setPidRst v).pid = s.pid := rfl
@[simp] theorem setPidRst_tach (v : Bool) : (s.setPidRst v).tach = s.tach := rfl
@[simp] theorem setPidRst_qPrevA (v : Bool) : (s.setPidRst v).qPrevA = s.qPrevA := rfl
@[simp] theorem setPidRst_ramp (v : Bool) : (s.setPidRst v).ramp = s.ramp := rfl
@[simp] theorem setPidRst_out (v : Bool) : (s.setPidRst v).out = s.out := rfl
@[simp] theorem setPidRst_ports (v : Bool) : (s.setPidRst v).ports = s.ports := rfl
@[simp] theorem setPidRst_latch (v : Bool) : (s.setPidRst v).latch = s.latch := rfl
@[simp] theorem setPidRst_wires (v : Bool) : (s.setPidRst v).wires = s.wires := rfl
@[simp] theorem setPidRst_faulted (v : Bool) : (s.setPidRst v).faulted = s.faulted := rfl
@[simp] theorem setPidRst_cfg (v : Bool) : (s.setPidRst v).cfg = s.cfg := rfl
@[simp] theorem setPidRst_feed (v : Bool) : (s.setPidRst v).feed = s.feed := rfl
@[simp] theorem setPidRst_draws (v : Bool) : (s.setPidRst v).draws = s.draws := rfl

/-! ### `setPwmOut` -/

@[simp] theorem setPwmOut_duty (v : Bool) : (s.setPwmOut v).duty = s.duty := rfl
@[simp] theorem setPwmOut_ontime (v : Bool) : (s.setPwmOut v).ontime = s.ontime := rfl
@[simp] theorem setPwmOut_rps (v : Bool) : (s.setPwmOut v).rps = s.rps := rfl
@[simp] theorem setPwmOut_mode (v : Bool) : (s.setPwmOut v).mode = s.mode := rfl
@[simp] theorem setPwmOut_pidRst (v : Bool) : (s.setPwmOut v).pidRst = s.pidRst := rfl
@[simp] theorem setPwmOut_pwmOut (v : Bool) : (s.setPwmOut v).pwmOut = v := rfl
@[simp] theorem setPwmOut_pid (v : Bool) : (s.setPwmOut v).pid = s.pid := rfl
@[simp] theorem setPwmOut_tach (v : Bool) : (s.setPwmOut v).tach = s.tach := rfl
@[simp] theorem setPwmOut_qPrevA (v : Bool) : (s.setPwmOut v).qPrevA = s.qPrevA := rfl
@[simp] theorem setPwmOut_ramp (v : Bool) : (s.setPwmOut v).ramp = s.ramp := rfl
@[simp] theorem setPwmOut_out (v : Bool) : (s.setPwmOut v).out = s.out := rfl
@[simp] theorem setPwmOut_ports (v : Bool) : (s.setPwmOut v).ports = s.ports := rfl
@[simp] theorem setPwmOut_latch (v : Bool) : (s.setPwmOut v).latch = s.latch := rfl
@[simp] theorem setPwmOut_wires (v : Bool) : (s.setPwmOut v).wires = s.wires := rfl
@[simp] theorem setPwmOut_faulted (v : Bool) : (s.setPwmOut v).faulted = s.faulted := rfl
@[simp] theorem setPwmOut_cfg (v : Bool) : (s.setPwmOut v).cfg = s.cfg := rfl
@[simp] theorem setPwmOut_feed (v : Bool) : (s.setPwmOut v).feed = s.feed := rfl
@[simp] theorem setPwmOut_draws (v : Bool) : (s.setPwmOut v).draws = s.draws := rfl

/-! ### `setPid` -/

@[simp] theorem setPid_duty (v : PidState) : (s.setPid v).duty = s.duty := rfl
@[simp] theorem setPid_ontime (v : PidState) : (s.setPid v).ontime = s.ontime := rfl
@[simp] theorem setPid_rps (v : PidState) : (s.setPid v).rps = s.rps := rfl
@[simp] theorem setPid_mode (v : PidState) : (s.setPid v).mode = s.mode := rfl
@[simp] theorem setPid_pidRst (v : PidState) : (s.setPid v).pidRst = s.pidRst := rfl
@[simp] theorem setPid_pwmOut (v : PidState) : (s.setPid v).pwmOut = s.pwmOut := rfl
@[simp] theorem setPid_pid (v : PidState) : (s.setPid v).pid = v := rfl
@[simp] theorem setPid_tach (v : PidState) : (s.setPid v).tach = s.tach := rfl
@[simp] theorem setPid_qPrevA (v : PidState) : (s.setPid v).qPrevA = s.qPrevA := rfl
@[simp] theorem setPid_ramp (v : PidState) : (s.setPid v).ramp = s.ramp := rfl
@[simp] theorem setPid_out (v : PidState) : (s.setPid v).out = s.out := rfl
@[simp] theorem setPid_ports (v : PidState) : (s.setPid v).ports = s.ports := rfl
@[simp] theorem setPid_latch (v : PidState) : (s.setPid v).latch = s.latch := rfl
@[simp] theorem setPid_wires (v : PidState) : (s.setPid v).wires = s.wires := rfl
@[simp] theorem setPid_faulted (v : PidState) : (s.setPid v).faulted = s.faulted := rfl
@[simp] theorem setPid_cfg (v : PidState) : (s.setPid v).cfg = s.cfg := rfl
@[simp] theorem setPid_feed (v : PidState) : (s.setPid v).feed = s.feed := rfl
@[simp] theorem setPid_draws (v : PidState) : (s.setPid v).draws = s.draws := rfl

/-! ### `setTach` -/

@[simp] theorem setTach_duty (v : TachRegs) : (s.setTach v).duty = s.duty := rfl
@[simp] theorem setTach_ontime (v : TachRegs) : (s.setTach v).ontime = s.ontime := rfl
@[simp] theorem setTach_rps (v : TachRegs) : (s.setTach v).rps = s.rps := rfl
@[simp] theorem setTach_mode (v : TachRegs) : (s.setTach v).mode = s.mode := rfl
@[simp] theorem setTach_pidRst (v : TachRegs) : (s.setTach v).pidRst = s.pidRst := rfl
@[simp] theorem setTach_pwmOut (v : TachRegs) : (s.setTach v).pwmOut = s.pwmOut := rfl
@[simp] theorem setTach_pid (v : TachRegs) : (s.setTach v).pid = s.pid := rfl
@[simp] theorem setTach_tach (v : TachRegs) : (s.setTach v).tach = v := rfl
@[simp] theorem setTach_qPrevA (v : TachRegs) : (s.setTach v).qPrevA = s.qPrevA := rfl
@[simp] theorem setTach_ramp (v : TachRegs) : (s.setTach v).ramp = s.ramp := rfl
@[simp] theorem setTach_out (v : TachRegs) : (s.setTach v).out = s.out := rfl
@[simp] theorem setTach_ports (v : TachRegs) : (s.setTach v).ports = s.ports := rfl
@[simp] theorem setTach_latch (v : TachRegs) : (s.setTach v).latch = s.latch := rfl
@[simp] theorem setTach_wires (v : TachRegs) : (s.setTach v).wires = s.wires := rfl
@[simp] theorem setTach_faulted (v : TachRegs) : (s.setTach v).faulted = s.faulted := rfl
@[simp] theorem setTach_cfg (v : TachRegs) : (s.setTach v).cfg = s.cfg := rfl
@[simp] theorem setTach_feed (v : TachRegs) : (s.setTach v).feed = s.feed := rfl
@[simp] theorem setTach_draws (v : TachRegs) : (s.setTach v).draws = s.draws := rfl

/-! ### `setQPrevA` -/

@[simp] theorem setQPrevA_duty (v : Bool) : (s.setQPrevA v).duty = s.duty := rfl
@[simp] theorem setQPrevA_ontime (v : Bool) : (s.setQPrevA v).ontime = s.ontime := rfl
@[simp] theorem setQPrevA_rps (v : Bool) : (s.setQPrevA v).rps = s.rps := rfl
@[simp] theorem setQPrevA_mode (v : Bool) : (s.setQPrevA v).mode = s.mode := rfl
@[simp] theorem setQPrevA_pidRst (v : Bool) : (s.setQPrevA v).pidRst = s.pidRst := rfl
@[simp] theorem setQPrevA_pwmOut (v : Bool) : (s.setQPrevA v).pwmOut = s.pwmOut := rfl
@[simp] theorem setQPrevA_pid (v : Bool) : (s.setQPrevA v).pid = s.pid := rfl
@[simp] theorem setQPrevA_tach (v : Bool) : (s.setQPrevA v).tach = s.tach := rfl
@[simp] theorem setQPrevA_qPrevA (v : Bool) : (s.setQPrevA v).qPrevA = v := rfl
@[simp] theorem setQPrevA_ramp (v : Bool) : (s.setQPrevA v).ramp = s.ramp := rfl
@[simp] theorem setQPrevA_out (v : Bool) : (s.setQPrevA v).out = s.out := rfl
@[simp] theorem setQPrevA_ports (v : Bool) : (s.setQPrevA v).ports = s.ports := rfl
@[simp] theorem setQPrevA_latch (v : Bool) : (s.setQPrevA v).latch = s.latch := rfl
@[simp] theorem setQPrevA_wires (v : Bool) : (s.setQPrevA v).wires = s.wires := rfl
@[simp] theorem setQPrevA_faulted (v : Bool) : (s.setQPrevA v).faulted = s.faulted := rfl
@[simp] theorem setQPrevA_cfg (v : Bool) : (s.setQPrevA v).cfg = s.cfg := rfl
@[simp] theorem setQPrevA_feed (v : Bool) : (s.setQPrevA v).feed = s.feed := rfl
@[simp] theorem setQPrevA_draws (v : Bool) : (s.setQPrevA v).draws = s.draws := rfl

/-! ### `setRamp` -/

@[simp] theorem setRamp_duty (v : RampRegs) : (s.setRamp v).duty = s.duty := rfl
@[simp] theorem setRamp_ontime (v : RampRegs) : (s.setRamp v).ontime = s.ontime := rfl
@[simp] theorem setRamp_rps (v : RampRegs) : (s.setRamp v).rps = s.rps := rfl
@[simp] theorem setRamp_mode (v : RampRegs) : (s.setRamp v).mode = s.mode := rfl
@[simp] theorem setRamp_pidRst (v : RampRegs) : (s.setRamp v).pidRst = s.pidRst := rfl
@[simp] theorem setRamp_pwmOut (v : RampRegs) : (s.setRamp v).pwmOut = s.pwmOut := rfl
@[simp] theorem setRamp_pid (v : RampRegs) : (s.setRamp v).pid = s.pid := rfl
@[simp] theorem setRamp_tach (v : RampRegs) : (s.setRamp v).tach = s.tach := rfl
@[simp] theorem setRamp_qPrevA (v : RampRegs) : (s.setRamp v).qPrevA = s.qPrevA := rfl
@[simp] theorem setRamp_ramp (v : RampRegs) : (s.setRamp v).ramp = v := rfl
@[simp] theorem setRamp_out (v : RampRegs) : (s.setRamp v).out = s.out := rfl
@[simp] theorem setRamp_ports (v : RampRegs) : (s.setRamp v).ports = s.ports := rfl
@[simp] theorem setRamp_latch (v : RampRegs) : (s.setRamp v).latch = s.latch := rfl
@[simp] theorem setRamp_wires (v : RampRegs) : (s.setRamp v).wires = s.wires := rfl
@[simp] theorem setRamp_faulted (v : RampRegs) : (s.setRamp v).faulted = s.faulted := rfl
@[simp] theorem setRamp_cfg (v : RampRegs) : (s.setRamp v).cfg = s.cfg := rfl
@[simp] theorem setRamp_feed (v : RampRegs) : (s.setRamp v).feed = s.feed := rfl
@[simp] theorem setRamp_draws (v : RampRegs) : (s.setRamp v).draws = s.draws := rfl

/-! ### `setOut` -/

@[simp] theorem setOut_duty (v : Out) : (s.setOut v).duty = s.duty := rfl
@[simp] theorem setOut_ontime (v : Out) : (s.setOut v).ontime = s.ontime := rfl
@[simp] theorem setOut_rps (v : Out) : (s.setOut v).rps = s.rps := rfl
@[simp] theorem setOut_mode (v : Out) : (s.setOut v).mode = s.mode := rfl
@[simp] theorem setOut_pidRst (v : Out) : (s.setOut v).pidRst = s.pidRst := rfl
@[simp] theorem setOut_pwmOut (v : Out) : (s.setOut v).pwmOut = s.pwmOut := rfl
@[simp] theorem setOut_pid (v : Out) : (s.setOut v).pid = s.pid := rfl
@[simp] theorem setOut_tach (v : Out) : (s.setOut v).tach = s.tach := rfl
@[simp] theorem setOut_qPrevA (v : Out) : (s.setOut v).qPrevA = s.qPrevA := rfl
@[simp] theorem setOut_ramp (v : Out) : (s.setOut v).ramp = s.ramp := rfl
@[simp] theorem setOut_out (v : Out) : (s.setOut v).out = v := rfl
@[simp] theorem setOut_ports (v : Out) : (s.setOut v).ports = s.ports := rfl
@[simp] theorem setOut_latch (v : Out) : (s.setOut v).latch = s.latch := rfl
@[simp] theorem setOut_wires (v : Out) : (s.setOut v).wires = s.wires := rfl
@[simp] theorem setOut_faulted (v : Out) : (s.setOut v).faulted = s.faulted := rfl
@[simp] theorem setOut_cfg (v : Out) : (s.setOut v).cfg = s.cfg := rfl
@[simp] theorem setOut_feed (v : Out) : (s.setOut v).feed = s.feed := rfl
@[simp] theorem setOut_draws (v : Out) : (s.setOut v).draws = s.draws := rfl

/-! ### `setPorts` -/

@[simp] theorem setPorts_duty (v : In) : (s.setPorts v).duty = s.duty := rfl
@[simp] theorem setPorts_ontime (v : In) : (s.setPorts v).ontime = s.ontime := rfl
@[simp] theorem setPorts_rps (v : In) : (s.setPorts v).rps = s.rps := rfl
@[simp] theorem setPorts_mode (v : In) : (s.setPorts v).mode = s.mode := rfl
@[simp] theorem setPorts_pidRst (v : In) : (s.setPorts v).pidRst = s.pidRst := rfl
@[simp] theorem setPorts_pwmOut (v : In) : (s.setPorts v).pwmOut = s.pwmOut := rfl
@[simp] theorem setPorts_pid (v : In) : (s.setPorts v).pid = s.pid := rfl
@[simp] theorem setPorts_tach (v : In) : (s.setPorts v).tach = s.tach := rfl
@[simp] theorem setPorts_qPrevA (v : In) : (s.setPorts v).qPrevA = s.qPrevA := rfl
@[simp] theorem setPorts_ramp (v : In) : (s.setPorts v).ramp = s.ramp := rfl
@[simp] theorem setPorts_out (v : In) : (s.setPorts v).out = s.out := rfl
@[simp] theorem setPorts_ports (v : In) : (s.setPorts v).ports = v := rfl
@[simp] theorem setPorts_latch (v : In) : (s.setPorts v).latch = s.latch := rfl
@[simp] theorem setPorts_wires (v : In) : (s.setPorts v).wires = s.wires := rfl
@[simp] theorem setPorts_faulted (v : In) : (s.setPorts v).faulted = s.faulted := rfl
@[simp] theorem setPorts_cfg (v : In) : (s.setPorts v).cfg = s.cfg := rfl
@[simp] theorem setPorts_feed (v : In) : (s.setPorts v).feed = s.feed := rfl
@[simp] theorem setPorts_draws (v : In) : (s.setPorts v).draws = s.draws := rfl

/-! ### `setLatch` -/

@[simp] theorem setLatch_duty (v : In) : (s.setLatch v).duty = s.duty := rfl
@[simp] theorem setLatch_ontime (v : In) : (s.setLatch v).ontime = s.ontime := rfl
@[simp] theorem setLatch_rps (v : In) : (s.setLatch v).rps = s.rps := rfl
@[simp] theorem setLatch_mode (v : In) : (s.setLatch v).mode = s.mode := rfl
@[simp] theorem setLatch_pidRst (v : In) : (s.setLatch v).pidRst = s.pidRst := rfl
@[simp] theorem setLatch_pwmOut (v : In) : (s.setLatch v).pwmOut = s.pwmOut := rfl
@[simp] theorem setLatch_pid (v : In) : (s.setLatch v).pid = s.pid := rfl
@[simp] theorem setLatch_tach (v : In) : (s.setLatch v).tach = s.tach := rfl
@[simp] theorem setLatch_qPrevA (v : In) : (s.setLatch v).qPrevA = s.qPrevA := rfl
@[simp] theorem setLatch_ramp (v : In) : (s.setLatch v).ramp = s.ramp := rfl
@[simp] theorem setLatch_out (v : In) : (s.setLatch v).out = s.out := rfl
@[simp] theorem setLatch_ports (v : In) : (s.setLatch v).ports = s.ports := rfl
@[simp] theorem setLatch_latch (v : In) : (s.setLatch v).latch = v := rfl
@[simp] theorem setLatch_wires (v : In) : (s.setLatch v).wires = s.wires := rfl
@[simp] theorem setLatch_faulted (v : In) : (s.setLatch v).faulted = s.faulted := rfl
@[simp] theorem setLatch_cfg (v : In) : (s.setLatch v).cfg = s.cfg := rfl
@[simp] theorem setLatch_feed (v : In) : (s.setLatch v).feed = s.feed := rfl
@[simp] theorem setLatch_draws (v : In) : (s.setLatch v).draws = s.draws := rfl

/-! ### `setWires` -/

@[simp] theorem setWires_duty (v : Wires) : (s.setWires v).duty = s.duty := rfl
@[simp] theorem setWires_ontime (v : Wires) : (s.setWires v).ontime = s.ontime := rfl
@[simp] theorem setWires_rps (v : Wires) : (s.setWires v).rps = s.rps := rfl
@[simp] theorem setWires_mode (v : Wires) : (s.setWires v).mode = s.mode := rfl
@[simp] theorem setWires_pidRst (v : Wires) : (s.setWires v).pidRst = s.pidRst := rfl
@[simp] theorem setWires_pwmOut (v : Wires) : (s.setWires v).pwmOut = s.pwmOut := rfl
@[simp] theorem setWires_pid (v : Wires) : (s.setWires v).pid = s.pid := rfl
@[simp] theorem setWires_tach (v : Wires) : (s.setWires v).tach = s.tach := rfl
@[simp] theorem setWires_qPrevA (v : Wires) : (s.setWires v).qPrevA = s.qPrevA := rfl
@[simp] theorem setWires_ramp (v : Wires) : (s.setWires v).ramp = s.ramp := rfl
@[simp] theorem setWires_out (v : Wires) : (s.setWires v).out = s.out := rfl
@[simp] theorem setWires_ports (v : Wires) : (s.setWires v).ports = s.ports := rfl
@[simp] theorem setWires_latch (v : Wires) : (s.setWires v).latch = s.latch := rfl
@[simp] theorem setWires_wires (v : Wires) : (s.setWires v).wires = v := rfl
@[simp] theorem setWires_faulted (v : Wires) : (s.setWires v).faulted = s.faulted := rfl
@[simp] theorem setWires_cfg (v : Wires) : (s.setWires v).cfg = s.cfg := rfl
@[simp] theorem setWires_feed (v : Wires) : (s.setWires v).feed = s.feed := rfl
@[simp] theorem setWires_draws (v : Wires) : (s.setWires v).draws = s.draws := rfl

/-! ### `setFaulted` -/

@[simp] theorem setFaulted_duty (v : Bool) : (s.setFaulted v).duty = s.duty := rfl
@[simp] theorem setFaulted_ontime (v : Bool) : (s.setFaulted v).ontime = s.ontime := rfl
@[simp] theorem setFaulted_rps (v : Bool) : (s.setFaulted v).rps = s.rps := rfl
@[simp] theorem setFaulted_mode (v : Bool) : (s.setFaulted v).mode = s.mode := rfl
@[simp] theorem setFaulted_pidRst (v : Bool) : (s.setFaulted v).pidRst = s.pidRst := rfl
@[simp] theorem setFaulted_pwmOut (v : Bool) : (s.setFaulted v).pwmOut = s.pwmOut := rfl
@[simp] theorem setFaulted_pid (v : Bool) : (s.setFaulted v).pid = s.pid := rfl
@[simp] theorem setFaulted_tach (v : Bool) : (s.setFaulted v).tach = s.tach := rfl
@[simp] theorem setFaulted_qPrevA (v : Bool) : (s.setFaulted v).qPrevA = s.qPrevA := rfl
@[simp] theorem setFaulted_ramp (v : Bool) : (s.setFaulted v).ramp = s.ramp := rfl
@[simp] theorem setFaulted_out (v : Bool) : (s.setFaulted v).out = s.out := rfl
@[simp] theorem setFaulted_ports (v : Bool) : (s.setFaulted v).ports = s.ports := rfl
@[simp] theorem setFaulted_latch (v : Bool) : (s.setFaulted v).latch = s.latch := rfl
@[simp] theorem setFaulted_wires (v : Bool) : (s.setFaulted v).wires = s.wires := rfl
@[simp] theorem setFaulted_faulted (v : Bool) : (s.setFaulted v).faulted = v := rfl
@[simp] theorem setFaulted_cfg (v : Bool) : (s.setFaulted v).cfg = s.cfg := rfl
@[simp] theorem setFaulted_feed (v : Bool) : (s.setFaulted v).feed = s.feed := rfl
@[simp] theorem setFaulted_draws (v : Bool) : (s.setFaulted v).draws = s.draws := rfl

/-! ### `setFeed` -/

@[simp] theorem setFeed_duty (v : List Stimulus) : (s.setFeed v).duty = s.duty := rfl
@[simp] theorem setFeed_ontime (v : List Stimulus) : (s.setFeed v).ontime = s.ontime := rfl
@[simp] theorem setFeed_rps (v : List Stimulus) : (s.setFeed v).rps = s.rps := rfl
@[simp] theorem setFeed_mode (v : List Stimulus) : (s.setFeed v).mode = s.mode := rfl
@[simp] theorem setFeed_pidRst (v : List Stimulus) : (s.setFeed v).pidRst = s.pidRst := rfl
@[simp] theorem setFeed_pwmOut (v : List Stimulus) : (s.setFeed v).pwmOut = s.pwmOut := rfl
@[simp] theorem setFeed_pid (v : List Stimulus) : (s.setFeed v).pid = s.pid := rfl
@[simp] theorem setFeed_tach (v : List Stimulus) : (s.setFeed v).tach = s.tach := rfl
@[simp] theorem setFeed_qPrevA (v : List Stimulus) : (s.setFeed v).qPrevA = s.qPrevA := rfl
@[simp] theorem setFeed_ramp (v : List Stimulus) : (s.setFeed v).ramp = s.ramp := rfl
@[simp] theorem setFeed_out (v : List Stimulus) : (s.setFeed v).out = s.out := rfl
@[simp] theorem setFeed_ports (v : List Stimulus) : (s.setFeed v).ports = s.ports := rfl
@[simp] theorem setFeed_latch (v : List Stimulus) : (s.setFeed v).latch = s.latch := rfl
@[simp] theorem setFeed_wires (v : List Stimulus) : (s.setFeed v).wires = s.wires := rfl
@[simp] theorem setFeed_faulted (v : List Stimulus) : (s.setFeed v).faulted = s.faulted := rfl
@[simp] theorem setFeed_cfg (v : List Stimulus) : (s.setFeed v).cfg = s.cfg := rfl
@[simp] theorem setFeed_feed (v : List Stimulus) : (s.setFeed v).feed = v := rfl
@[simp] theorem setFeed_draws (v : List Stimulus) : (s.setFeed v).draws = s.draws := rfl

/-! ### `setDraws` -/

@[simp] theorem setDraws_duty (v : Nat) : (s.setDraws v).duty = s.duty := rfl
@[simp] theorem setDraws_ontime (v : Nat) : (s.setDraws v).ontime = s.ontime := rfl
@[simp] theorem setDraws_rps (v : Nat) : (s.setDraws v).rps = s.rps := rfl
@[simp] theorem setDraws_mode (v : Nat) : (s.setDraws v).mode = s.mode := rfl
@[simp] theorem setDraws_pidRst (v : Nat) : (s.setDraws v).pidRst = s.pidRst := rfl
@[simp] theorem setDraws_pwmOut (v : Nat) : (s.setDraws v).pwmOut = s.pwmOut := rfl
@[simp] theorem setDraws_pid (v : Nat) : (s.setDraws v).pid = s.pid := rfl
@[simp] theorem setDraws_tach (v : Nat) : (s.setDraws v).tach = s.tach := rfl
@[simp] theorem setDraws_qPrevA (v : Nat) : (s.setDraws v).qPrevA = s.qPrevA := rfl
@[simp] theorem setDraws_ramp (v : Nat) : (s.setDraws v).ramp = s.ramp := rfl
@[simp] theorem setDraws_out (v : Nat) : (s.setDraws v).out = s.out := rfl
@[simp] theorem setDraws_ports (v : Nat) : (s.setDraws v).ports = s.ports := rfl
@[simp] theorem setDraws_latch (v : Nat) : (s.setDraws v).latch = s.latch := rfl
@[simp] theorem setDraws_wires (v : Nat) : (s.setDraws v).wires = s.wires := rfl
@[simp] theorem setDraws_faulted (v : Nat) : (s.setDraws v).faulted = s.faulted := rfl
@[simp] theorem setDraws_cfg (v : Nat) : (s.setDraws v).cfg = s.cfg := rfl
@[simp] theorem setDraws_feed (v : Nat) : (s.setDraws v).feed = s.feed := rfl
@[simp] theorem setDraws_draws (v : Nat) : (s.setDraws v).draws = v := rfl

/-! ### `resetState` -/

@[simp] theorem resetState_duty : (resetState s).duty = State.reset.duty := rfl
@[simp] theorem resetState_ontime : (resetState s).ontime = State.reset.ontime := rfl
@[simp] theorem resetState_rps : (resetState s).rps = State.reset.rps := rfl
@[simp] theorem resetState_mode : (resetState s).mode = State.reset.mode := rfl
@[simp] theorem resetState_pidRst : (resetState s).pidRst = State.reset.pidRst := rfl
@[simp] theorem resetState_pwmOut : (resetState s).pwmOut = State.reset.pwmOut := rfl
@[simp] theorem resetState_pid : (resetState s).pid = .ofRegs s.cfg.num (zeroPid s.cfg.num.num) := rfl
@[simp] theorem resetState_tach : (resetState s).tach = State.reset.tach := rfl
@[simp] theorem resetState_qPrevA : (resetState s).qPrevA = State.reset.qPrevA := rfl
@[simp] theorem resetState_ramp : (resetState s).ramp = State.reset.ramp := rfl
@[simp] theorem resetState_out : (resetState s).out = State.reset.out := rfl
@[simp] theorem resetState_ports : (resetState s).ports = s.ports := rfl
@[simp] theorem resetState_latch : (resetState s).latch = s.latch := rfl
@[simp] theorem resetState_wires : (resetState s).wires = s.wires := rfl
@[simp] theorem resetState_faulted : (resetState s).faulted = State.reset.faulted := rfl
@[simp] theorem resetState_cfg : (resetState s).cfg = s.cfg := rfl
@[simp] theorem resetState_feed : (resetState s).feed = s.feed := rfl
@[simp] theorem resetState_draws : (resetState s).draws = s.draws := rfl

end Sys2Proof.Machine
end

