-- ==== Sys2Proof/Laws/Basic.lean ====
section
/-! SUPPORT. The small lemmas of the shared operations: sequencing, the configuration check, the clamp, the ports, the
derived quantities. Later proofs cite these and do not unfold the operations again. -/

namespace Sys2Proof.Machine

/-! ### Sequencing -/

@[simp] theorem andThen_next (s : State) (k : State → Result) : andThen (.next s) k = k s := rfl

@[simp] theorem andThen_fault (f : Fault) (k : State → Result) : andThen (.fault f) k = .fault f := rfl

@[simp] theorem andThen_refused (e : Refusal) (k : State → Result) : andThen (.refused e) k = .refused e := rfl

/-- A sequence answers next exactly when its parts do. -/
theorem andThen_eq_next {r : Result} {k : State → Result} {t : State} :
    andThen r k = .next t ↔ ∃ s, r = .next s ∧ k s = .next t := by
  cases r <;> simp

/-- A sequence faults exactly when its first part does, or its first part answers next and the rest does. -/
theorem andThen_eq_fault {r : Result} {k : State → Result} {f : Fault} :
    andThen r k = .fault f ↔ r = .fault f ∨ ∃ s, r = .next s ∧ k s = .fault f := by
  cases r <;> simp

theorem withCfg_of_wf {s : State} (h : s.cfg.wf = true) (k : State → Result) : withCfg s k = k s := by
  simp [withCfg, h]

theorem withCfg_of_not_wf {s : State} (h : s.cfg.wf = false) (k : State → Result) :
    withCfg s k = .refused .configOutOfRange := by
  simp [withCfg, h]

theorem withCfg_eq_next {s : State} {k : State → Result} {t : State} :
    withCfg s k = .next t ↔ s.cfg.wf = true ∧ k s = .next t := by
  unfold withCfg
  split <;> simp_all

/-! ### The configuration -/

theorem literal_iff (c : Cfg) :
    c.literal = true ↔
      c.rampUnit = 1000 ∧ c.windowsPerSec = 2 ∧ c.phaseSteps = 100 ∧ c.dutyMax = 100 ∧ c.speedMax = 50 := by
  simp [Cfg.literal, and_assoc]

theorem cfg_wf_iff (c : Cfg) :
    c.wf = true ↔ 2 ≤ c.clockFreq ∧ 1 ≤ c.maxRps ∧ c.clockFreq < 2 ^ c.cntW ∧ c.clockFreq < 2 ^ c.freqW ∧
      c.literal = true := by
  simp [Cfg.wf, and_assoc]

/-- The five values that the rules write out. -/
theorem wf_literals {c : Cfg} (h : c.wf = true) :
    c.rampUnit = 1000 ∧ c.windowsPerSec = 2 ∧ c.phaseSteps = 100 ∧ c.dutyMax = 100 ∧ c.speedMax = 50 :=
  (literal_iff c).1 ((cfg_wf_iff c).1 h).2.2.2.2

/-- A configuration whose WINDOWS_PER_SEC is the 2 of R121 divides by half of CLOCK_FREQ. -/
theorem windowIndex_eq {c : Cfg} (h : c.wf = true) (n : Nat) : windowIndex c n = n / (c.clockFreq / 2) := by
  rw [windowIndex, (wf_literals h).2.1]

/-- PHASE with the 100 of R101. -/
theorem phaseValue_eq {c : Cfg} (h : c.wf = true) (n f : Nat) :
    phaseValue c n f = 100 * (n % (c.clockFreq / f)) / (c.clockFreq / f) := by
  rw [phaseValue, (wf_literals h).2.2.1, period]

/-- MEASURED with the 50 of R130. -/
theorem measuredValue_eq {c : Cfg} (h : c.wf = true) (r : Nat) :
    measuredValue c r = min 50 (r * 50 / c.maxRps) := by
  rw [measuredValue, (wf_literals h).2.2.2.2]

/-- RAMP's threshold with the 1000 of R152. -/
theorem rampThreshold_eq {c : Cfg} (h : c.wf = true) (m : Nat) : rampThreshold c m = 1000 * m := by
  rw [rampThreshold, (wf_literals h).1]

/-- This hardware's configuration satisfies R9 whatever MAX_RPS is. -/
theorem hardware_wf : Config.hardware.wf = true := by
  simp [Cfg.wf, Cfg.literal, Config.hardware]

/-! ### Clamp -/

theorem clampInt_mem {lo hi : Int} (v : Int) (h : lo ≤ hi) : lo ≤ clampInt v lo hi ∧ clampInt v lo hi ≤ hi := by
  unfold clampInt
  split_ifs <;> omega

/-- "clamping an already-clamped value is a no-op" (R12). -/
theorem clampInt_of_mem {lo hi v : Int} (h1 : lo ≤ v) (h2 : v ≤ hi) : clampInt v lo hi = v := by
  unfold clampInt
  split_ifs <;> omega

theorem clampInt_idem {lo hi : Int} (v : Int) (h : lo ≤ hi) : clampInt (clampInt v lo hi) lo hi = clampInt v lo hi :=
  clampInt_of_mem (clampInt_mem v h).1 (clampInt_mem v h).2

/-- A clamped value survives the store into the 7-bit register. -/
theorem clampedDuty_toNat {c : Cfg} (hc : c.wf = true) (d : Int) :
    ((clampedDuty c d).toNat : Int) = clampInt d 0 100 := by
  have h := clampInt_mem (lo := 0) (hi := 100) d (by omega)
  simp only [clampedDuty, (wf_literals hc).2.2.2.1, BitVec.toNat_ofInt]
  norm_num
  omega

theorem clampedDuty_le {c : Cfg} (hc : c.wf = true) (d : Int) : (clampedDuty c d).toNat ≤ 100 := by
  have h := clampInt_mem (lo := 0) (hi := 100) d (by omega)
  have := clampedDuty_toNat hc d
  omega

/-! ### Derived quantities -/

theorem period_pos {c : Cfg} {f : Nat} (h0 : 1 ≤ f) (h1 : f ≤ c.clockFreq) : 1 ≤ period c f :=
  (Nat.one_le_div_iff h0).2 h1

/-- PHASE is always in 0..99 (R102); with a period of 0 the division gives 0. -/
theorem phaseValue_lt {c : Cfg} (hc : c.wf = true) (cnt f : Nat) : phaseValue c cnt f < 100 := by
  rw [phaseValue, (wf_literals hc).2.2.1]
  rcases Nat.eq_zero_or_pos (period c f) with h | h
  · simp [h]
  · rw [Nat.div_lt_iff_lt_mul h]
    have := Nat.mod_lt cnt h
    omega

theorem measuredValue_le {c : Cfg} (hc : c.wf = true) (r : Nat) : measuredValue c r ≤ 50 := by
  rw [measuredValue_eq hc]
  exact Nat.min_le_left _ _

theorem desiredValue_le {d : Percent} (h : d.toNat ≤ 100) : desiredValue d ≤ 50 := by
  unfold desiredValue
  omega

theorem degenerateFreq_eq_false {c : Cfg} {f : Nat} :
    degenerateFreq c f = false ↔ 1 ≤ f ∧ f ≤ c.clockFreq := by
  simp [degenerateFreq]
  omega

theorem degenerateFreq_eq_true {c : Cfg} {f : Nat} :
    degenerateFreq c f = true ↔ f = 0 ∨ c.clockFreq < f := by
  simp [degenerateFreq]

/-- The frequency check either passes the state on unchanged or raises DivideFault. -/
theorem checkFreq_eq (s : State) :
    checkFreq s =
      if degenerateFreq s.cfg s.latch.pwmFreq then .fault (.divideFault s.latch.pwmFreq) else .next s := rfl

@[simp] theorem bitNat_true : bitNat true = 1 := rfl

@[simp] theorem bitNat_false : bitNat false = 0 := rfl

theorem bitNat_lt (b : Bool) : bitNat b < 2 := by cases b <;> decide

/-- The GATE word is 00 exactly when the output is off and ONTIME is not 0 (R81, R228). -/
theorem gateWord_eq_zero (s : State) : gateWord s = 0b00#2 ↔ s.pwmOut = false ∧ s.ontime ≠ 0#7 := by
  unfold gateWord
  cases s.pwmOut <;> by_cases h : s.ontime = 0#7 <;> simp [h]

/-! ### Ports -/

/-- A port reads back what was written to it, at its width. -/
theorem readOut_writeOut_same (c : Cfg) (o : Out) (p : OutPort) (v : Nat) :
    readOut (writeOut c o p v) p = v % 2 ^ outWidth c p := by
  cases p <;> simp [readOut, writeOut, outWidth, bitNat]
  all_goals split <;> omega

/-- A write to one port leaves every other port alone. -/
theorem readOut_writeOut_other (c : Cfg) (o : Out) {p q : OutPort} (h : q ≠ p) (v : Nat) :
    readOut (writeOut c o p v) q = readOut o q := by
  cases p <;> cases q <;> first | rfl | exact absurd rfl h

/-! ### Sampling -/

@[simp] theorem sampleIn_tachIn (c : Cfg) (i : In) : (sampleIn c i).tachIn = i.tachIn := rfl
@[simp] theorem sampleIn_quadA (c : Cfg) (i : In) : (sampleIn c i).quadA = i.quadA := rfl
@[simp] theorem sampleIn_quadB (c : Cfg) (i : In) : (sampleIn c i).quadB = i.quadB := rfl
@[simp] theorem sampleIn_sel (c : Cfg) (i : In) : (sampleIn c i).sel = i.sel := rfl
@[simp] theorem sampleIn_altInfo (c : Cfg) (i : In) : (sampleIn c i).altInfo = i.altInfo := rfl
@[simp] theorem sampleIn_cnt (c : Cfg) (i : In) : (sampleIn c i).cnt = i.cnt % 2 ^ c.cntW := rfl
@[simp] theorem sampleIn_pwmFreq (c : Cfg) (i : In) : (sampleIn c i).pwmFreq = i.pwmFreq % 2 ^ c.freqW := rfl
@[simp] theorem sampleIn_resp (c : Cfg) (i : In) : (sampleIn c i).resp = i.resp % 2 ^ c.respW := rfl
@[simp] theorem sampleIn_rampMult (c : Cfg) (i : In) : (sampleIn c i).rampMult = i.rampMult % 2 ^ c.multW := rfl

/-- A sampled port is the port at its width. -/
theorem readIn_sampleIn (c : Cfg) (i : In) (p : InPort) : readIn (sampleIn c i) p = readIn i p % 2 ^ inWidth c p := by
  cases p <;> simp only [readIn, inWidth, sampleIn_cnt, sampleIn_tachIn, sampleIn_quadA, sampleIn_quadB, sampleIn_sel,
    sampleIn_pwmFreq, sampleIn_resp, sampleIn_rampMult, sampleIn_altInfo]
  all_goals first
    | exact (Nat.mod_eq_of_lt (by simpa using bitNat_lt _)).symm
    | exact (Nat.mod_eq_of_lt (BitVec.isLt _)).symm

/-- Sampling sampled inputs again changes nothing. -/
theorem sampleIn_idem (c : Cfg) (i : In) : sampleIn c (sampleIn c i) = sampleIn c i := by
  simp [sampleIn]

/-! ### PIDState -/

/-- Registers of the run's NUM read back as they were stored. -/
@[simp] theorem regsAs_ofRegs (k : NumKind) (p : PidRegs k.Carrier) : (PidState.ofRegs k p).regsAs k = some p := by
  cases k <;> rfl

/-- PIDState that reads as registers of an instance is those registers. -/
theorem regsAs_eq_some {k : NumKind} {x : PidState} {p : PidRegs k.Carrier} (h : x.regsAs k = some p) :
    x = .ofRegs k p := by
  cases k <;> cases x <;> simp_all [PidState.regsAs, PidState.ofRegs]

/-! ### Port reads and writes -/

@[simp] theorem memWrite_eq (s : State) (p : OutPort) (v : Nat) : memWrite s p v = s.setOut (writeOut s.cfg s.out p v) := rfl

@[simp] theorem memRead_eq (s : State) (p : InPort) : memRead s p = readIn s.latch p := rfl

end Sys2Proof.Machine
end

