-- ==== Sys2Proof/Laws/Decode.lean ====
section
/-! SUPPORT. The iteration word and the narrow words: packing and unpacking are inverse to each other, and a narrow
word stands in the low bits of its `Encoded`. -/

namespace Sys2Proof

open Machine (bitNat_lt)

/-- The sum of R91's fields, as a number. -/
def packNat (i : In) : Nat :=
  i.cnt + bitNat i.tachIn * 2 ^ 32 + bitNat i.quadA * 2 ^ 33 + bitNat i.quadB * 2 ^ 34 + i.sel.toNat * 2 ^ 35
    + i.pwmFreq * 2 ^ 39 + i.resp * 2 ^ 71 + i.rampMult * 2 ^ 79 + bitNat i.altInfo * 2 ^ 87

theorem iwFits_iff (i : In) :
    iwFits i = true ↔ i.cnt < 2 ^ 32 ∧ i.pwmFreq < 2 ^ 32 ∧ i.resp < 2 ^ 8 ∧ i.rampMult < 2 ^ 8 := by
  simp [iwFits, and_assoc]

theorem packNat_lt {i : In} (h : iwFits i = true) : packNat i < 2 ^ 88 := by
  obtain ⟨h1, h6, h7, h8⟩ := (iwFits_iff i).1 h
  have h2 := bitNat_lt i.tachIn
  have h3 := bitNat_lt i.quadA
  have h4 := bitNat_lt i.quadB
  have h5 := i.sel.isLt
  have h9 := bitNat_lt i.altInfo
  unfold packNat
  omega

theorem packIw_toNat {i : In} (h : iwFits i = true) : (packIw i).toNat = packNat i := by
  have hp : packIw i = BitVec.ofNat 88 (packNat i) := rfl
  rw [hp, BitVec.toNat_ofNat, Nat.mod_eq_of_lt (packNat_lt h)]

theorem bit_eq_of_bitNat {b : Bool} {n : Nat} (h : n = bitNat b) : decide (n = 1) = b := by
  subst h
  cases b <;> rfl

theorem getLsbD_eq_decide (w : IterationWord) (k : Nat) : w.getLsbD k = decide (w.toNat / 2 ^ k % 2 = 1) := by
  rw [BitVec.getLsbD, Nat.testBit_eq_decide_div_mod_eq]

theorem extract_toNat (w : IterationWord) (lo n : Nat) : (w.extractLsb' lo n).toNat = w.toNat / 2 ^ lo % 2 ^ n := by
  rw [BitVec.extractLsb'_toNat, Nat.shiftRight_eq_div_pow]

/-- Unpacking an iteration word gives back every field it was packed from. -/
theorem unpackIw_packIw {i : In} (h : iwFits i = true) : unpackIw (packIw i) = i := by
  obtain ⟨h1, h6, h7, h8⟩ := (iwFits_iff i).1 h
  have h2 := bitNat_lt i.tachIn
  have h3 := bitNat_lt i.quadA
  have h4 := bitNat_lt i.quadB
  have h5 := i.sel.isLt
  have h9 := bitNat_lt i.altInfo
  have field : ∀ (lo n v : Nat), packNat i / 2 ^ lo % 2 ^ n = v → ((packIw i).extractLsb' lo n).toNat = v := by
    intro lo n v hv
    rw [extract_toNat, packIw_toNat h, hv]
  have bit : ∀ (k : Nat) (b : Bool), packNat i / 2 ^ k % 2 = bitNat b → (packIw i).getLsbD k = b := by
    intro k b hb
    rw [getLsbD_eq_decide, packIw_toNat h]
    exact bit_eq_of_bitNat hb
  cases i
  simp only [packNat] at *
  simp only [unpackIw, In.mk.injEq]
  refine ⟨field _ _ _ ?_, bit _ _ ?_, bit _ _ ?_, bit _ _ ?_, BitVec.eq_of_toNat_eq (field _ _ _ ?_),
    field _ _ _ ?_, field _ _ _ ?_, field _ _ _ ?_, bit _ _ ?_⟩ <;> omega

/-- Unpacked inputs fit the fields they came from. -/
theorem iwFits_unpackIw (w : IterationWord) : iwFits (unpackIw w) = true := by
  rw [iwFits_iff]
  exact ⟨BitVec.isLt _, BitVec.isLt _, BitVec.isLt _, BitVec.isLt _⟩

theorem bitNat_decide (n : Nat) : bitNat (decide (n % 2 = 1)) = n % 2 := by
  rcases Nat.mod_two_eq_zero_or_one n with h | h <;> simp [h]

/-- Packing the fields of an iteration word gives the word back: no bit of it is dropped. -/
theorem packIw_unpackIw (w : IterationWord) : packIw (unpackIw w) = w := by
  apply BitVec.eq_of_toNat_eq
  rw [packIw_toNat (iwFits_unpackIw w)]
  have hw := w.isLt
  simp only [packNat, unpackIw, extract_toNat, getLsbD_eq_decide, bitNat_decide]
  omega

/-- A narrow value in the low bits, read back. -/
theorem lowWord_toNat (slot : Slot) {v : Nat} (h : v < 2 ^ 88) : (lowWord slot v).word.toNat = v := by
  rw [lowWord, BitVec.toNat_ofNat, Nat.mod_eq_of_lt h]

end Sys2Proof
end

