-- ==== Sys2Proof/Laws/Exec.lean ====
section
/-! SUPPORT. What the operations and the sequencer can do, said once: what `exec` is on each operation, how the
sequencer's decodes agree with the decoder, and the induction that carries a property of states from the operations
to ITER and to a step. -/

namespace Sys2Proof.Machine

/-! ### The sequencer runs what the decoder reads -/

theorem runSelector_eq_exec (w : BitVec 4) (s : State) : runSelector w s = exec (decodeSel w) s := by
  unfold runSelector decodeSel
  split_ifs <;> rfl

theorem runDutySource_eq_exec (m : BitVec 2) (s : State) :
    runDutySource m s = match decodeDutySource m with
      | some i => exec i s
      | none => .next s := by
  unfold runDutySource decodeDutySource
  split_ifs <;> rfl

theorem runOnTimeSource_eq_exec (m : BitVec 2) (s : State) :
    runOnTimeSource m s = exec (decodeOnTimeSource m) s := by
  unfold runOnTimeSource decodeOnTimeSource
  split_ifs <;> rfl

theorem runGate_eq_exec (g : BitVec 2) (s : State) : runGate g s = exec (decodeGate g) s := by
  unfold runGate decodeGate
  split_ifs <;> rfl

/-! ### What each operation does -/

theorem execPhase_eq_next {s t : State} :
    execPhase s = .next t ↔ s.cfg.wf = true ∧ EnvFreq s.cfg s.latch ∧
      s.setWires { s.wires with phase := phaseValue s.cfg s.latch.cnt s.latch.pwmFreq } = t := by
  unfold execPhase EnvFreq
  rw [withCfg_eq_next, andThen_eq_next]
  simp only [checkFreq_eq]
  cases h : degenerateFreq s.cfg s.latch.pwmFreq
  · have := degenerateFreq_eq_false.1 h
    simp [readIn, this]
  · have := degenerateFreq_eq_true.1 h
    simp
    omega

theorem execMeasured_eq_next {s t : State} :
    execMeasured s = .next t ↔ s.cfg.wf = true ∧
      s.setWires { s.wires with measured := measuredValue s.cfg s.rps } = t := by
  rw [execMeasured, withCfg_eq_next, Host.Outcome.next.injEq]

theorem execTach_eq_next {s t : State} :
    execTach s = .next t ↔ s.cfg.wf = true ∧
      tachCall (windowIndex s.cfg s.latch.cnt) s.latch.tachIn s = t := by
  rw [execTach, withCfg_eq_next, Host.Outcome.next.injEq, memRead_eq, readIn]

/-- The law answers next exactly when PIDState is data of the run's NUM and the clamped value has a floor. -/
theorem runPidLaw_eq_next {s t : State} :
    runPidLaw s = .next t ↔ ∃ p q on, s.pid = .ofRegs s.cfg.num p ∧
      pidLaw s.cfg.num.num p s.wires.desired s.wires.measured = some (q, on) ∧
      (s.setPid (.ofRegs s.cfg.num q)).setOntime (BitVec.ofInt 7 on) = t := by
  unfold runPidLaw
  constructor
  · intro h
    split at h
    · cases h
    · rename_i p hp
      split at h
      · rename_i q on hq
        exact ⟨p, q, on, regsAs_eq_some hp, hq, Host.Outcome.next.inj h⟩
      · cases h
  · rintro ⟨p, q, on, hp, hq, rfl⟩
    simp only [hp, regsAs_ofRegs, hq]

/-- The law at a named NUM: every way `runPidLaw` can end when PIDState is data of that NUM. -/
theorem runPidLaw_of_num {s : State} {k : NumKind} {p : PidRegs k.Carrier} (hk : s.cfg.num = k)
    (hp : s.pid = .ofRegs k p) :
    runPidLaw s = match pidLaw k.num p s.wires.desired s.wires.measured with
      | some (q, on) => .next ((s.setPid (.ofRegs k q)).setOntime (BitVec.ofInt 7 on))
      | none => .fault .pidNotANumber := by
  subst hk
  simp only [runPidLaw, hp, regsAs_ofRegs]
  cases pidLaw s.cfg.num.num p s.wires.desired s.wires.measured <;> rfl

/-- The reset branch's writes at a named NUM. -/
theorem consumePidReset_of_num {s : State} {k : NumKind} (hk : s.cfg.num = k) :
    consumePidReset s = (s.setPid (.ofRegs k (zeroPid k.num))).setPidRst false := by
  subst hk
  rfl

/-- The selector's entry rule never touches ONTIME, PWM_OUT, the private records or anything outside the registers
(R209). -/
theorem selectMode_frame (t : Mode) (s : State) :
    (selectMode t s).ontime = s.ontime ∧ (selectMode t s).pwmOut = s.pwmOut ∧ (selectMode t s).pid = s.pid ∧
    (selectMode t s).tach = s.tach ∧ (selectMode t s).qPrevA = s.qPrevA ∧ (selectMode t s).ramp = s.ramp ∧
    (selectMode t s).out = s.out ∧ (selectMode t s).ports = s.ports ∧ (selectMode t s).latch = s.latch ∧
    (selectMode t s).wires = s.wires ∧ (selectMode t s).faulted = s.faulted ∧ (selectMode t s).cfg = s.cfg ∧
    (selectMode t s).feed = s.feed ∧ (selectMode t s).draws = s.draws := by
  unfold selectMode
  split_ifs
  · simp
  · cases t <;> simp

@[simp] theorem selectMode_mode (t : Mode) (s : State) : (selectMode t s).mode = t := by
  unfold selectMode
  split_ifs with h
  · exact h.symm
  · cases t <;> rfl

/-- What a TACH call leaves alone (R37). -/
theorem tachCall_frame (w : Nat) (pin : Bool) (s : State) :
    (tachCall w pin s).duty = s.duty ∧ (tachCall w pin s).ontime = s.ontime ∧ (tachCall w pin s).mode = s.mode ∧
    (tachCall w pin s).pidRst = s.pidRst ∧ (tachCall w pin s).pwmOut = s.pwmOut ∧ (tachCall w pin s).pid = s.pid ∧
    (tachCall w pin s).qPrevA = s.qPrevA ∧ (tachCall w pin s).ramp = s.ramp ∧ (tachCall w pin s).out = s.out ∧
    (tachCall w pin s).ports = s.ports ∧ (tachCall w pin s).latch = s.latch ∧ (tachCall w pin s).wires = s.wires ∧
    (tachCall w pin s).faulted = s.faulted ∧ (tachCall w pin s).cfg = s.cfg ∧ (tachCall w pin s).feed = s.feed ∧
    (tachCall w pin s).draws = s.draws := by
  unfold tachCall
  simp only [setTach_duty, setTach_ontime, setTach_mode, setTach_pidRst, setTach_pwmOut, setTach_pid, setTach_qPrevA,
    setTach_ramp, setTach_out, setTach_ports, setTach_latch, setTach_wires, setTach_faulted, setTach_cfg,
    setTach_feed, setTach_draws]
  split <;> simp

theorem tachCall_rps (w : Nat) (pin : Bool) (s : State) :
    (tachCall w pin s).rps = if w = s.tach.win then s.rps else s.tach.acc % 2 ^ s.cfg.accW := by
  unfold tachCall
  by_cases h : w = s.tach.win <;> simp [h]

theorem tachCall_tach (w : Nat) (pin : Bool) (s : State) :
    (tachCall w pin s).tach =
      { win := w % 2 ^ s.cfg.winW, prev := pin, prev2 := s.tach.prev,
        acc := if w = s.tach.win then
            (if tachEdge pin s.tach.prev s.tach.prev2 then (s.tach.acc + 1) % 2 ^ s.cfg.accW else s.tach.acc)
          else 0 } := by
  unfold tachCall
  by_cases h : w = s.tach.win <;> simp [h]

/-! ### Carrying a property through a sequence -/

/-- Every next state of `k` from a state with `P` has `P`. -/
def Keeps (P : State → Prop) (k : State → Result) : Prop := ∀ s t, P s → k s = .next t → P t

theorem Keeps.seq {P : State → Prop} {k l : State → Result} (hk : Keeps P k) (hl : Keeps P l) :
    Keeps P fun s => andThen (k s) l := by
  intro s t hs h
  obtain ⟨u, hu, ht⟩ := andThen_eq_next.1 h
  exact hl u t (hk s u hs hu) ht

theorem Keeps.nothing {P : State → Prop} : Keeps P fun s => .next s := by
  intro s t hs h
  cases h
  exact hs

/-- The operations of an iteration: all but RESET and ITER itself. -/
def elementary : Instr → Bool
  | .reset => false
  | .iter _ => false
  | _ => true

/-- A property that every elementary operation keeps, and that does not look at what the ports present, is kept by
ITER. -/
theorem keeps_iter {P : State → Prop} (hports : ∀ s i, P s → P (s.setPorts i))
    (hops : ∀ op, elementary op = true → Keeps P (exec op)) (i : In) : Keeps P (exec (.iter i)) := by
  intro s t hs h
  replace h : execIter i s = .next t := h
  rw [execIter, withCfg_eq_next] at h
  obtain ⟨-, h⟩ := h
  split at h
  · cases h
  obtain ⟨a, ha, h⟩ := andThen_eq_next.1 h
  have pa := hops .sample rfl _ a (hports s i hs) ha
  obtain ⟨b, hb, h⟩ := andThen_eq_next.1 h
  have hab : a = b := by
    rw [checkFreq_eq] at hb
    split at hb
    · cases hb
    · exact Host.Outcome.next.inj hb
  subst hab
  unfold runPipeline at h
  have sel : Keeps P (exec (decodeSel a.latch.sel)) := hops _ (by unfold decodeSel; split_ifs <;> rfl)
  obtain ⟨c, hc, h⟩ := andThen_eq_next.1 h
  have pc := sel a c pa (runSelector_eq_exec _ _ ▸ hc)
  obtain ⟨d, hd, h⟩ := andThen_eq_next.1 h
  have pd := hops .phase rfl c d pc hd
  obtain ⟨e, he, h⟩ := andThen_eq_next.1 h
  have pe : P e := by
    unfold runDutySource at he
    split_ifs at he
    · cases he
      exact pd
    · exact hops .ramp rfl d e pd he
    · exact hops (.quad true) rfl d e pd he
  obtain ⟨f, hf, h⟩ := andThen_eq_next.1 h
  have pf := hops .desired rfl e f pe hf
  obtain ⟨g, hg, h⟩ := andThen_eq_next.1 h
  have pg := hops .measured rfl f g pf hg
  obtain ⟨k, hk, h⟩ := andThen_eq_next.1 h
  have pk : P k := by
    rw [runOnTimeSource_eq_exec] at hk
    exact hops _ (by unfold decodeOnTimeSource; split_ifs <;> rfl) g k pg hk
  obtain ⟨l, hl, h⟩ := andThen_eq_next.1 h
  have pl := hops .pwm rfl k l pk hl
  obtain ⟨m, hm, h⟩ := andThen_eq_next.1 h
  have pm : P m := by
    rw [runGate_eq_exec] at hm
    exact hops _ (by unfold decodeGate; split_ifs <;> rfl) l m pl hm
  exact hops .out rfl m t pm h

/-- A property that every operation keeps, and that does not look at what is presented next, is kept by a step. -/
theorem keeps_step {P : State → Prop} (hfeed : ∀ s l, P s → P (s.setFeed l)) (hdraws : ∀ s n, P s → P (s.setDraws n))
    (hops : ∀ op, Keeps P (exec op)) : Keeps P step := by
  intro s t hs h
  rw [step, withCfg_eq_next] at h
  obtain ⟨-, h⟩ := h
  split at h
  · rename_i i _
    refine hops i _ t ?_ h
    unfold fetch
    split
    · exact hdraws _ _ hs
    · exact hfeed _ _ hs
  · cases h

end Sys2Proof.Machine
end

