-- ==== Sys2Proof/Laws/Iteration.lean ====
section
/-! SUPPORT. The normal form of an iteration. With a configuration inside R9 and a legal PWM_FREQ every operation but
the on-time source is a plain function of the state, so ITER is: the front (selector, PHASE, duty-cycle source,
DESIRED, MEASURED), the on-time source, the back (PWM, gated TACH, OUT). Claims about ITER cite `iter_eq_next` and
the lemmas of the three parts; they do not unfold the pipeline again. -/

namespace Sys2Proof.Machine

/-! ### The parts as plain functions -/

/-- The mode a one-hot SEL word names (R82). -/
def selTarget (w : BitVec 4) : Option Mode :=
  if w = 0b0001#4 then some .off
  else if w = 0b0010#4 then some .ramp
  else if w = 0b0100#4 then some .closedLoop
  else if w = 0b1000#4 then some .openLoop
  else none

/-- The state the selector operation leaves (R82, R205). -/
def selected (w : BitVec 4) (s : State) : State :=
  match selTarget w with
  | some t => selectMode t s
  | none => s

theorem runSelector_eq (w : BitVec 4) (s : State) : runSelector w s = .next (selected w s) := by
  unfold runSelector selected selTarget
  split_ifs <;> first | rfl | simp_all

/-- The state QUAD leaves. -/
def quadState (s : State) : State :=
  (s.setQPrevA s.latch.quadA).setDuty
    (clampedDuty s.cfg (quadDuty s.duty.toNat s.latch.resp s.latch.quadA s.latch.quadB s.qPrevA))

theorem execQuad_eq (s : State) : execQuad s = .next (quadState s) := rfl

/-- The state RAMP leaves. -/
def rampState (s : State) : State :=
  (s.setRamp
    { dir := rampDir s.cfg (rampDuty s.cfg s.duty.toNat s.ramp.elapsed s.latch.rampMult s.ramp.dir) s.ramp.dir
      elapsed := rampElapsed s.cfg s.ramp.elapsed s.latch.rampMult % 2 ^ s.cfg.elapsedW }).setDuty
    (clampedDuty s.cfg (rampDuty s.cfg s.duty.toNat s.ramp.elapsed s.latch.rampMult s.ramp.dir))

theorem execRamp_eq (s : State) : execRamp s = .next (rampState s) := rfl

/-- The state the duty-cycle source leaves (R222). -/
def sourced (s : State) : State :=
  match s.mode with
  | .off => s
  | .ramp => rampState s
  | .closedLoop => quadState s
  | .openLoop => quadState s

theorem runDutySource_eq (s : State) : runDutySource (modeWord s) s = .next (sourced s) := by
  unfold runDutySource modeWord sourced
  cases s.mode <;> rfl

/-- The on-time source by mode (R222). -/
theorem runOnTimeSource_eq (s : State) :
    runOnTimeSource (modeWord s) s = match s.mode with
      | .off => .next (s.setOntime 0#7)
      | .ramp => .next (s.setOntime s.duty)
      | .closedLoop => execPid s
      | .openLoop => .next (s.setOntime s.duty) := by
  unfold runOnTimeSource modeWord
  cases s.mode <;> rfl

/-- The three derived quantities, all recomputed. -/
def withWires (phase desired measured : Nat) (s : State) : State :=
  s.setWires { phase := phase, desired := desired, measured := measured }

/-- The state PWM leaves. -/
def pwmState (s : State) : State :=
  (s.setPwmOut (pwmOn s.wires.phase s.ontime)).setOut
    (writeOut s.cfg s.out .pwmPin (bitNat (pwmOn s.wires.phase s.ontime)))

theorem execPwm_eq (s : State) : execPwm s = .next (pwmState s) := rfl

/-- The state the tachometer gate leaves (R228). -/
def gated (s : State) : State :=
  if s.pwmOut = false ∧ s.ontime ≠ 0#7 then s
  else tachCall (windowIndex s.cfg s.latch.cnt) s.latch.tachIn s

theorem runGate_eq {s : State} (h : s.cfg.wf = true) : runGate (gateWord s) s = .next (gated s) := by
  unfold runGate gated
  by_cases hg : s.pwmOut = false ∧ s.ontime ≠ 0#7
  · rw [if_pos hg, if_pos ((gateWord_eq_zero s).2 hg)]
    rfl
  · rw [if_neg hg, if_neg (fun h' => hg ((gateWord_eq_zero s).1 h'))]
    exact withCfg_of_wf h _

/-- The display ports after OUT (R232). -/
def displayed (s : State) : Out where
  pwmPin := s.out.pwmPin
  oMode := modeBits s.mode
  oAlt := s.latch.altInfo
  oDuty := s.duty
  oRps := s.rps % 2 ^ s.cfg.accW
  oDesired := BitVec.ofNat 6 (desiredValue s.duty)
  oOntime := s.ontime
  oFreq := s.latch.pwmFreq % 2 ^ s.cfg.freqW

theorem decide_bitNat (b : Bool) : decide (bitNat b % 2 = 1) = b := by cases b <;> rfl

theorem execOut_eq (s : State) : execOut s = .next (s.setOut (displayed s)) := by
  have twice : ∀ (x : State) (o o' : Out), (x.setOut o).setOut o' = x.setOut o' := fun _ _ _ => rfl
  simp only [execOut, memWrite_eq, memRead_eq, readIn, modeWord, writeOut, displayed, setOut_out, setOut_cfg, twice,
    BitVec.ofNat_toNat, BitVec.setWidth_eq, decide_bitNat]

/-! ### The normal form -/

/-- The state in front of the on-time source. -/
def front (s : State) : State :=
  let a := selected s.latch.sel s
  let b := sourced (a.setWires { a.wires with phase := phaseValue a.cfg a.latch.cnt a.latch.pwmFreq })
  withWires b.wires.phase (desiredValue b.duty) (measuredValue b.cfg b.rps) b

/-- The state after the on-time source has left `s`. -/
def back (s : State) : State :=
  let c := gated (pwmState s)
  c.setOut (displayed c)

/-- The selector leaves the state as it is or applies the entry rule to a named mode. -/
theorem selected_cases (w : BitVec 4) (s : State) :
    (selTarget w = none ∧ selected w s = s) ∨ ∃ t, selTarget w = some t ∧ selected w s = selectMode t s := by
  unfold selected
  cases h : selTarget w with
  | none => exact Or.inl ⟨rfl, rfl⟩
  | some t => exact Or.inr ⟨t, rfl, rfl⟩

/-- What the selector leaves alone (R209). -/
theorem selected_frame (w : BitVec 4) (s : State) :
    (selected w s).ontime = s.ontime ∧ (selected w s).pwmOut = s.pwmOut ∧ (selected w s).pid = s.pid ∧
    (selected w s).tach = s.tach ∧ (selected w s).qPrevA = s.qPrevA ∧ (selected w s).ramp = s.ramp ∧
    (selected w s).out = s.out ∧ (selected w s).ports = s.ports ∧ (selected w s).latch = s.latch ∧
    (selected w s).wires = s.wires ∧ (selected w s).faulted = s.faulted ∧ (selected w s).cfg = s.cfg ∧
    (selected w s).feed = s.feed ∧ (selected w s).draws = s.draws := by
  rcases selected_cases w s with ⟨-, h⟩ | ⟨t, -, h⟩
  · simp only [h, and_self]
  · simp only [h]
    exact selectMode_frame t s

@[simp] theorem selected_latch (w : BitVec 4) (s : State) : (selected w s).latch = s.latch :=
  (selected_frame w s).2.2.2.2.2.2.2.2.1

@[simp] theorem selected_cfg (w : BitVec 4) (s : State) : (selected w s).cfg = s.cfg :=
  (selected_frame w s).2.2.2.2.2.2.2.2.2.2.2.1

/-- The selector sets the mode a one-hot word names and keeps it otherwise. -/
@[simp] theorem selected_mode (w : BitVec 4) (s : State) : (selected w s).mode = (selTarget w).getD s.mode := by
  rcases selected_cases w s with ⟨h1, h2⟩ | ⟨t, h1, h2⟩
  · simp [h1, h2]
  · simp [h1, h2]

/-- What the duty-cycle source leaves alone. -/
theorem sourced_frame (s : State) :
    (sourced s).ontime = s.ontime ∧ (sourced s).rps = s.rps ∧ (sourced s).mode = s.mode ∧
    (sourced s).pidRst = s.pidRst ∧ (sourced s).pwmOut = s.pwmOut ∧ (sourced s).pid = s.pid ∧
    (sourced s).tach = s.tach ∧ (sourced s).out = s.out ∧ (sourced s).ports = s.ports ∧
    (sourced s).latch = s.latch ∧ (sourced s).wires = s.wires ∧ (sourced s).faulted = s.faulted ∧
    (sourced s).cfg = s.cfg ∧ (sourced s).feed = s.feed ∧ (sourced s).draws = s.draws := by
  unfold sourced
  split <;> simp [quadState, rampState]

@[simp] theorem sourced_cfg (s : State) : (sourced s).cfg = s.cfg := (sourced_frame s).2.2.2.2.2.2.2.2.2.2.2.2.1

/-! ### The wires pass through -/

theorem selectMode_setWires (t : Mode) (s : State) (w : Wires) :
    selectMode t (s.setWires w) = (selectMode t s).setWires w := by
  unfold selectMode
  rw [setWires_mode]
  split_ifs
  · rfl
  · cases t <;> rfl

/-- The selector neither reads nor writes the wires. -/
theorem selected_setWires (x : BitVec 4) (s : State) (w : Wires) :
    selected x (s.setWires w) = (selected x s).setWires w := by
  unfold selected
  cases selTarget x with
  | none => rfl
  | some t => exact selectMode_setWires t s w

/-- The duty-cycle source neither reads nor writes the wires. -/
theorem sourced_setWires (s : State) (w : Wires) : sourced (s.setWires w) = (sourced s).setWires w := by
  unfold sourced
  rw [setWires_mode]
  cases s.mode <;> rfl

/-- The front reads no wire: the three derived quantities of the selected and sourced state (R24). -/
theorem front_eq (s : State) :
    front s = withWires (phaseValue s.cfg s.latch.cnt s.latch.pwmFreq)
      (desiredValue (sourced (selected s.latch.sel s)).duty)
      (measuredValue s.cfg (sourced (selected s.latch.sel s)).rps) (sourced (selected s.latch.sel s)) := by
  unfold front
  simp only [sourced_setWires, setWires_wires, setWires_duty, setWires_rps, setWires_cfg, sourced_cfg, selected_cfg,
    selected_latch]
  rfl

@[simp] theorem front_mode (s : State) : (front s).mode = (selTarget s.latch.sel).getD s.mode := by
  rw [front_eq]
  show (sourced _).mode = _
  rw [(sourced_frame _).2.2.1, selected_mode]

@[simp] theorem front_cfg (s : State) : (front s).cfg = s.cfg := by simp [front, withWires]

@[simp] theorem pwmState_cfg (s : State) : (pwmState s).cfg = s.cfg := rfl

/-- What the gate leaves alone: TACH writes TachometerState and RPS, TACH_SKIP nothing (R37). -/
theorem gated_frame (s : State) :
    (gated s).duty = s.duty ∧ (gated s).ontime = s.ontime ∧ (gated s).mode = s.mode ∧
    (gated s).pidRst = s.pidRst ∧ (gated s).pwmOut = s.pwmOut ∧ (gated s).pid = s.pid ∧
    (gated s).qPrevA = s.qPrevA ∧ (gated s).ramp = s.ramp ∧ (gated s).out = s.out ∧
    (gated s).ports = s.ports ∧ (gated s).latch = s.latch ∧ (gated s).wires = s.wires ∧
    (gated s).faulted = s.faulted ∧ (gated s).cfg = s.cfg ∧ (gated s).feed = s.feed ∧
    (gated s).draws = s.draws := by
  unfold gated
  split_ifs
  · simp
  · exact tachCall_frame _ _ s

/-- The on-time source writes ONTIME, and in ClosedLoop alone PIDState and PID_RST (R37). -/
theorem runOnTimeSource_frame {s u : State} (h : runOnTimeSource (modeWord s) s = .next u) :
    u = { s with pid := u.pid, pidRst := u.pidRst, ontime := u.ontime } ∧
      (s.mode ≠ .closedLoop → u.pid = s.pid ∧ u.pidRst = s.pidRst) := by
  rw [runOnTimeSource_eq] at h
  split at h
  · cases h
    exact ⟨rfl, fun _ => ⟨rfl, rfl⟩⟩
  · cases h
    exact ⟨rfl, fun _ => ⟨rfl, rfl⟩⟩
  · rename_i hm
    refine ⟨?_, fun hc => absurd hm hc⟩
    unfold execPid at h
    split_ifs at h
    · obtain ⟨p, q, on, -, -, rfl⟩ := runPidLaw_eq_next.1 h
      rfl
    · cases h
      rfl
    · obtain ⟨p, q, on, -, -, rfl⟩ := runPidLaw_eq_next.1 h
      rfl
  · cases h
    exact ⟨rfl, fun _ => ⟨rfl, rfl⟩⟩

/-- The on-time source writes no configuration. -/
theorem runOnTimeSource_cfg {s u : State} (h : runOnTimeSource (modeWord s) s = .next u) : u.cfg = s.cfg := by
  rw [(runOnTimeSource_frame h).1]

/-- The pipeline in normal form. -/
theorem runPipeline_eq {s : State} (hw : s.cfg.wf = true) (hf : EnvFreq s.cfg s.latch) :
    runPipeline s = andThen (runOnTimeSource (modeWord (front s)) (front s)) fun u => .next (back u) := by
  unfold runPipeline
  rw [runSelector_eq, andThen_next]
  have hphase : execPhase (selected s.latch.sel s) = .next _ :=
    execPhase_eq_next.2 ⟨by simpa using hw, by simpa using hf, rfl⟩
  have hmeas : ∀ x : State, x.cfg.wf = true →
      execMeasured x = .next (x.setWires { x.wires with measured := measuredValue x.cfg x.rps }) :=
    fun x hx => execMeasured_eq_next.2 ⟨hx, rfl⟩
  rw [hphase, andThen_next, runDutySource_eq, andThen_next, execDesired, andThen_next, hmeas _ (by simpa using hw),
    andThen_next]
  show andThen (runOnTimeSource (modeWord (front s)) (front s)) _ = _
  cases hr : runOnTimeSource (modeWord (front s)) (front s) with
  | fault f => rfl
  | refused e => rfl
  | next u =>
    have hu : (pwmState u).cfg.wf = true := by
      rw [pwmState_cfg, runOnTimeSource_cfg hr, front_cfg]
      exact hw
    simp only [andThen_next]
    rw [execPwm_eq, andThen_next, runGate_eq hu, andThen_next, execOut_eq]
    rfl

/-- The inputs presented and sampled, each at its port's width. -/
def latched (i : In) (s : State) : State := (s.setPorts i).setLatch (sampleIn s.cfg i)

/-- ITER in normal form (R220): on a legal configuration, a run that is not faulted and a legal PWM_FREQ, it is the
front, the on-time source and the back. -/
theorem iter_eq {s : State} {i : In} (hw : s.cfg.wf = true) (hn : s.faulted = false) (hf : EnvFreq s.cfg (sampleIn s.cfg i)) :
    exec (.iter i) s = andThen (runOnTimeSource (modeWord (front (latched i s))) (front (latched i s)))
      fun u => .next (back u) := by
  show execIter i s = _
  have hdeg : degenerateFreq s.cfg (sampleIn s.cfg i).pwmFreq = false := degenerateFreq_eq_false.2 hf
  unfold execIter
  rw [withCfg_of_wf hw, if_neg (by simp [hn]), execSample, andThen_next]
  show andThen (checkFreq (latched i s)) runPipeline = _
  have hc : checkFreq (latched i s) = .next (latched i s) := by
    rw [checkFreq_eq, if_neg]
    simpa [latched] using hdeg
  rw [hc, andThen_next]
  exact runPipeline_eq (by simpa [latched] using hw) (by simpa [latched] using hf)

/-- ITER on a degenerate PWM_FREQ (R250). -/
theorem iter_degenerate {s : State} {i : In} (hw : s.cfg.wf = true) (hn : s.faulted = false)
    (hf : ¬EnvFreq s.cfg (sampleIn s.cfg i)) : exec (.iter i) s = .fault (.divideFault (sampleIn s.cfg i).pwmFreq) := by
  show execIter i s = _
  have hdeg : degenerateFreq s.cfg (sampleIn s.cfg i).pwmFreq = true := by
    rw [← Bool.not_eq_false, degenerateFreq_eq_false]
    exact hf
  unfold execIter
  rw [withCfg_of_wf hw, if_neg (by simp [hn]), execSample, andThen_next]
  show andThen (checkFreq (latched i s)) runPipeline = _
  rw [checkFreq_eq, if_pos (by simpa [latched] using hdeg), andThen_fault]
  rfl

/-- When ITER answers next, and with what: the inversion lemma of the iteration. -/
theorem iter_eq_next {s t : State} {i : In} :
    exec (.iter i) s = .next t ↔ s.cfg.wf = true ∧ s.faulted = false ∧ EnvFreq s.cfg (sampleIn s.cfg i) ∧
      ∃ u, runOnTimeSource (modeWord (front (latched i s))) (front (latched i s)) = .next u ∧ back u = t := by
  constructor
  · intro h
    have hw : s.cfg.wf = true := by
      have h' : execIter i s = .next t := h
      rw [execIter, withCfg_eq_next] at h'
      exact h'.1
    have hn : s.faulted = false := by
      by_contra hc
      have h' : execIter i s = .next t := h
      rw [execIter, withCfg_of_wf hw, if_pos (by simpa using hc)] at h'
      cases h'
    have hf : EnvFreq s.cfg (sampleIn s.cfg i) := by
      by_contra hc
      rw [iter_degenerate hw hn hc] at h
      cases h
    rw [iter_eq hw hn hf] at h
    obtain ⟨u, hu, hb⟩ := andThen_eq_next.1 h
    exact ⟨hw, hn, hf, u, hu, Host.Outcome.next.inj hb⟩
  · rintro ⟨hw, hn, hf, u, hu, rfl⟩
    rw [iter_eq hw hn hf, hu, andThen_next]

end Sys2Proof.Machine
end

