-- ==== Sys2Proof/Laws/Num.lean ====
section
/-! SUPPORT. The arithmetic of Machine/Num.lean in binary32: which magnitudes are representable, that packing one and
reading it back is the identity, how rounding is bounded, and that the control law keeps PIDState inside the bounds
of 43_pid.md R181, where its result always has a floor. -/

namespace Sys2Proof

/-! ### Rounding -/

theorem roundHalfEven_le {m D n : Nat} (hD : 0 < D) (h : m ≤ n * D) : roundHalfEven m D ≤ n := by
  have hd := Nat.div_add_mod m D
  have hr := Nat.mod_lt m hD
  have hq : m / D ≤ n := Nat.div_le_of_le_mul (by rwa [Nat.mul_comm] at h)
  unfold roundHalfEven
  split
  · rcases Nat.lt_or_ge (m / D) n with h' | h'
    · omega
    · have : m / D = n := le_antisymm hq h'
      rw [this, Nat.mul_comm D n] at hd
      have : m % D = 0 := by omega
      omega
  · exact hq

theorem le_roundHalfEven {m D n : Nat} (hD : 0 < D) (h : n * D ≤ m) : n ≤ roundHalfEven m D := by
  have hq : n ≤ m / D := (Nat.le_div_iff_mul_le hD).2 h
  unfold roundHalfEven
  split <;> omega

theorem roundHalfEven_of_dvd {n D : Nat} (hD : 0 < D) : roundHalfEven (n * D) D = n :=
  le_antisymm (roundHalfEven_le hD le_rfl) (le_roundHalfEven hD le_rfl)

/-- No integer is nearer to `m / D` than the rounded one. -/
theorem roundHalfEven_nearest {m D : Nat} (hD : 0 < D) (n : Nat) :
    |(roundHalfEven m D * D : Int) - m| ≤ |(n * D : Int) - m| := by
  have hd : (D : Int) * (m / D : Nat) + (m % D : Nat) = m := by exact_mod_cast Nat.div_add_mod m D
  have hr : ((m % D : Nat) : Int) < D := by exact_mod_cast Nat.mod_lt m hD
  have hr0 : (0 : Int) ≤ (m % D : Nat) := Int.natCast_nonneg _
  have hlow : |(roundHalfEven m D * D : Int) - m| ≤ (m % D : Nat) ∧
      |(roundHalfEven m D * D : Int) - m| ≤ D - (m % D : Nat) := by
    unfold roundHalfEven
    split <;> rename_i h
    · have h2 : (D : Int) ≤ 2 * (m % D : Nat) := by
        rcases h with h | h
        · exact_mod_cast h.le
        · exact_mod_cast h.1.ge
      rw [Nat.cast_succ, abs_of_nonneg (by nlinarith)]
      constructor <;> nlinarith
    · have h2 : (2 * (m % D : Nat) : Int) ≤ D := by
        have : 2 * (m % D) ≤ D := by
          by_contra hc
          exact h (Or.inl (by omega))
        exact_mod_cast this
      rw [abs_of_nonpos (by nlinarith)]
      constructor <;> nlinarith
  rcases Nat.lt_or_ge (m / D) n with h | h
  · refine hlow.2.trans ?_
    have h1 : ((m / D : Nat) : Int) + 1 ≤ n := by exact_mod_cast h
    refine le_trans ?_ (le_abs_self _)
    nlinarith
  · refine hlow.1.trans ?_
    have h1 : (n : Int) ≤ (m / D : Nat) := by exact_mod_cast h
    refine le_trans ?_ (neg_le_abs _)
    nlinarith

/-! ### Representable magnitudes of binary32 -/

/-- A magnitude, in units, that some binary32 datum has: at most 24 significant bits, normalised unless subnormal. -/
def Rep (m : Nat) : Prop := ∃ q e, m = q * 2 ^ e ∧ q < 2 ^ 24 ∧ (e = 0 ∨ 2 ^ 23 ≤ q)

theorem log2_of_bounds {m n : Nat} (h1 : 2 ^ n ≤ m) (h2 : m < 2 ^ (n + 1)) : m.log2 = n := by
  have hm : m ≠ 0 := by
    have := Nat.two_pow_pos n
    omega
  apply le_antisymm
  · exact Nat.lt_succ_iff.1 ((Nat.log2_lt hm).2 h2)
  · exact (Nat.le_log2 hm).2 h1

theorem Rep.log2 {q e : Nat} (h1 : 2 ^ 23 ≤ q) (h2 : q < 2 ^ 24) : (q * 2 ^ e).log2 = 23 + e := by
  apply log2_of_bounds
  · rw [pow_add]
    exact Nat.mul_le_mul_right _ h1
  · rw [show 23 + e + 1 = 24 + e by omega, pow_add]
    exact Nat.mul_lt_mul_of_pos_right h2 (Nat.two_pow_pos e)

/-- A magnitude that is a small multiple of a power of two is representable. -/
theorem rep_of_mul_two_pow {q e : Nat} (h : q < 2 ^ 24) : Rep (q * 2 ^ e) := by
  induction e generalizing q with
  | zero => exact ⟨q, 0, rfl, h, Or.inl rfl⟩
  | succ e ih =>
    by_cases hq : 2 ^ 23 ≤ q
    · exact ⟨q, e + 1, rfl, h, Or.inr hq⟩
    · have := ih (q := 2 * q) (by omega)
      rwa [show 2 * q * 2 ^ e = q * 2 ^ (e + 1) by ring] at this

theorem rep_two_pow (e : Nat) : Rep (2 ^ e) := by
  have := rep_of_mul_two_pow (q := 1) (e := e) (by norm_num)
  rwa [one_mul] at this

theorem rep_zero : Rep 0 := ⟨0, 0, rfl, by norm_num, Or.inl rfl⟩

/-- Rounding drops nothing below the unit and leaves at most 24 bits. -/
theorem roundMag_rep (m k : Nat) : Rep (roundMag binary32Format m k) := by
  unfold roundMag dropBits
  simp only [binary32Format]
  rcases Nat.le_total (m.log2 - 23) k with h | h
  · rw [max_eq_left h, Nat.sub_self, pow_zero, mul_one]
    have hle : roundHalfEven m (2 ^ k) ≤ 2 ^ 24 := by
      apply roundHalfEven_le (Nat.two_pow_pos k)
      rcases Nat.eq_zero_or_pos m with rfl | hm
      · simp
      · rw [← pow_add]
        exact ((Nat.log2_lt hm.ne').1 (show m.log2 < 24 + k by omega)).le
    rcases hle.lt_or_eq with h' | h'
    · have := rep_of_mul_two_pow (e := 0) h'
      rwa [pow_zero, mul_one] at this
    · rw [h']
      exact rep_two_pow 24
  · rw [max_eq_right h]
    have hle : roundHalfEven m (2 ^ (m.log2 - 23)) ≤ 2 ^ 24 := by
      apply roundHalfEven_le (Nat.two_pow_pos _)
      rcases Nat.eq_zero_or_pos m with rfl | hm
      · simp
      · rw [← pow_add]
        exact ((Nat.log2_lt hm.ne').1 (show m.log2 < 24 + (m.log2 - 23) by omega)).le
    rcases hle.lt_or_eq with h' | h'
    · exact rep_of_mul_two_pow h'
    · rw [h', ← pow_add]
      exact rep_two_pow _

/-- Rounding does not pass a representable magnitude from below. -/
theorem roundMag_le {m k R : Nat} (hR : Rep R) (h : m ≤ R * 2 ^ k) : roundMag binary32Format m k ≤ R := by
  obtain ⟨q, e, rfl, hq, hn⟩ := hR
  unfold roundMag
  have hk : k ≤ dropBits binary32Format m k := le_max_left _ _
  generalize hd : dropBits binary32Format m k = d at hk
  -- the grid of rounding is no coarser than that of the bound
  have key : d - k ≤ e ∨ d = k := by
    by_contra hc
    push Not at hc
    have hd' : d = m.log2 - 23 := by
      rw [dropBits] at hd
      simp only [binary32Format] at hd
      omega
    have hm : m ≠ 0 := by
      rintro rfl
      simp at hd'
      omega
    have h1 : 2 ^ m.log2 ≤ m := (Nat.le_log2 hm).1 le_rfl
    have h2 : q * 2 ^ e * 2 ^ k < 2 ^ (24 + e + k) := by
      rw [pow_add, pow_add]
      exact Nat.mul_lt_mul_of_pos_right (Nat.mul_lt_mul_of_pos_right hq (Nat.two_pow_pos e)) (Nat.two_pow_pos k)
    have h3 : 2 ^ (24 + e + k) ≤ 2 ^ m.log2 := Nat.pow_le_pow_right (by norm_num) (by omega)
    omega
  have : roundHalfEven m (2 ^ d) ≤ q * 2 ^ (e - (d - k)) ∧ d - k ≤ e := by
    have hde : d - k ≤ e := by
      rcases key with h' | h' <;> omega
    refine ⟨roundHalfEven_le (Nat.two_pow_pos d) ?_, hde⟩
    rw [mul_assoc, ← pow_add, show e - (d - k) + d = e + k by omega, pow_add, ← mul_assoc]
    exact h
  calc roundHalfEven m (2 ^ d) * 2 ^ (d - k) ≤ q * 2 ^ (e - (d - k)) * 2 ^ (d - k) :=
        Nat.mul_le_mul_right _ this.1
    _ = q * 2 ^ e := by rw [mul_assoc, ← pow_add, Nat.sub_add_cancel this.2]

/-- A representable magnitude is its own rounding. -/
theorem roundMag_of_rep {m : Nat} (h : Rep m) : roundMag binary32Format m 0 = m := by
  obtain ⟨q, e, rfl, hq, hn⟩ := h
  have hd : ∃ c, q * 2 ^ e = c * 2 ^ dropBits binary32Format (q * 2 ^ e) 0 := by
    unfold dropBits
    simp only [binary32Format, Nat.zero_max]
    by_cases h23 : 2 ^ 23 ≤ q
    · exact ⟨q, by rw [Rep.log2 h23 hq, Nat.add_sub_cancel_left]⟩
    · obtain rfl : e = 0 := by omega
      refine ⟨q, ?_⟩
      rw [pow_zero, mul_one]
      have : q.log2 - 23 = 0 := by
        rcases Nat.eq_zero_or_pos q with rfl | hq0
        · simp
        · have := (Nat.log2_lt hq0.ne').2 (show q < 2 ^ 23 by omega)
          omega
      rw [this, pow_zero, mul_one]
  obtain ⟨c, hc⟩ := hd
  unfold roundMag
  generalize dropBits binary32Format (q * 2 ^ e) 0 = d at hc
  rw [hc, roundHalfEven_of_dvd (Nat.two_pow_pos d), Nat.sub_zero]

/-- A magnitude that is not zero does not round to zero when no fraction of a unit is dropped. -/
theorem roundMag_pos {m : Nat} (h : 0 < m) : 0 < roundMag binary32Format m 0 := by
  unfold roundMag
  apply Nat.mul_pos _ (Nat.two_pow_pos _)
  apply Nat.lt_of_succ_le
  apply le_roundHalfEven (Nat.two_pow_pos _)
  rw [Nat.succ_eq_add_one, Nat.zero_add, one_mul]
  refine le_trans ?_ ((Nat.le_log2 h.ne').1 le_rfl)
  apply Nat.pow_le_pow_right (by norm_num)
  unfold dropBits
  omega

/-! ### Patterns -/

/-- A representable magnitude short of overflow: its pattern fits 32 bits and reads back as that datum. -/
theorem packMag_spec {neg : Bool} {m : Nat} (hR : Rep m) (hm : m < 2 ^ 277) :
    packMag binary32Format neg m < 2 ^ 32 ∧
      floatVal binary32Format (packMag binary32Format neg m) = .fin neg m := by
  obtain ⟨q, e, rfl, hq, hn⟩ := hR
  have hs : signPart binary32Format neg = if neg then 2147483648 else 0 := rfl
  by_cases hsub : q * 2 ^ e < 2 ^ 23
  · have hp : packMag binary32Format neg (q * 2 ^ e) = (if neg then 2147483648 else 0) + q * 2 ^ e := by
      rw [packMag, if_pos (show q * 2 ^ e < 2 ^ binary32Format.fracBits from hsub), hs]
    rw [hp]
    generalize q * 2 ^ e = m at hsub
    constructor
    · split <;> omega
    · unfold floatVal
      simp only [binary32Format]
      norm_num at hsub ⊢
      cases neg
      · have h1 : m / 2147483648 % 2 = 0 := by omega
        have h2 : m / 8388608 % 256 = 0 := by omega
        have h3 : m % 8388608 = m := by omega
        simp [h1, h2, h3]
      · have h1 : (2147483648 + m) / 2147483648 % 2 = 1 := by omega
        have h2 : (2147483648 + m) / 8388608 % 256 = 0 := by omega
        have h3 : (2147483648 + m) % 8388608 = m := by omega
        simp [h2, h3]
        omega
  · have hq23 : 2 ^ 23 ≤ q := by
      rcases hn with rfl | h
      · simpa using hsub
      · exact h
    have he : e < 254 := by
      by_contra hc
      have h1 : 2 ^ 277 ≤ 2 ^ 23 * 2 ^ e := by
        rw [← pow_add]
        exact Nat.pow_le_pow_right (by norm_num) (by omega)
      exact absurd (h1.trans (Nat.mul_le_mul_right _ hq23)) (not_le.2 hm)
    have hp : packMag binary32Format neg (q * 2 ^ e)
        = (if neg then 2147483648 else 0) + (e + 1) * 8388608 + (q - 8388608) := by
      rw [packMag, if_neg (show ¬q * 2 ^ e < 2 ^ binary32Format.fracBits from hsub)]
      simp only [Rep.log2 hq23 hq, hs]
      have hfrac : binary32Format.fracBits = 23 := rfl
      have hexp : binary32Format.expBits = 8 := rfl
      rw [hfrac, hexp, show 23 + e - 23 + 1 = e + 1 by omega, if_neg (by norm_num; omega), Nat.add_sub_cancel,
        Nat.mul_div_cancel _ (Nat.two_pow_pos e)]
      norm_num
    rw [hp]
    norm_num at hq hq23
    constructor
    · split <;> norm_num <;> omega
    · unfold floatVal
      simp only [binary32Format]
      norm_num
      cases neg
      · have h1 : ((e + 1) * 8388608 + (q - 8388608)) / 2147483648 % 2 = 0 := by omega
        have h2 : ((e + 1) * 8388608 + (q - 8388608)) / 8388608 % 256 = e + 1 := by omega
        have h3 : ((e + 1) * 8388608 + (q - 8388608)) % 8388608 = q - 8388608 := by omega
        have h4 : 8388608 + (q - 8388608) = q := by omega
        have h5 : e ≠ 254 := by omega
        simp [h1, h2, h3, h4, h5]
      · have h1 : (2147483648 + (e + 1) * 8388608 + (q - 8388608)) / 2147483648 % 2 = 1 := by omega
        have h2 : (2147483648 + (e + 1) * 8388608 + (q - 8388608)) / 8388608 % 256 = e + 1 := by omega
        have h3 : (2147483648 + (e + 1) * 8388608 + (q - 8388608)) % 8388608 = q - 8388608 := by omega
        have h4 : 8388608 + (q - 8388608) = q := by omega
        have h5 : e ≠ 254 := by omega
        simp [h1, h2, h3, h4, h5]

/-- A 32-bit pattern with its sign bit flipped. -/
theorem floatNeg_spec {b m : Nat} {neg : Bool} (hb : b < 2 ^ 32) (h : floatVal binary32Format b = .fin neg m) :
    floatVal binary32Format (floatNeg binary32Format b) = .fin (!neg) m := by
  unfold floatVal floatNeg at *
  simp only [binary32Format] at *
  norm_num at *
  split at h
  · split at h <;> cases h
  rename_i h255
  by_cases hs : b / 2147483648 % 2 = 1
  · have h1 : (b - 2147483648) / 2147483648 % 2 = 0 := by omega
    have h2 : (b - 2147483648) / 8388608 % 256 = b / 8388608 % 256 := by omega
    have h3 : (b - 2147483648) % 8388608 = b % 8388608 := by omega
    simp only [hs, if_true, h1, h2, h3, if_neg h255] at h ⊢
    split at h <;> cases h <;> simp_all
  · have h1 : (b + 2147483648) / 2147483648 % 2 = 1 := by omega
    have h2 : (b + 2147483648) / 8388608 % 256 = b / 8388608 % 256 := by omega
    have h3 : (b + 2147483648) % 8388608 = b % 8388608 := by omega
    simp only [hs, if_false, h1, h2, h3, if_neg h255] at h ⊢
    split at h <;> cases h <;> simp_all

/-! ### The primitives on finite data -/

/-- The datum a binary32 register holds. -/
def datum (x : Binary32) : FloatVal := floatVal binary32Format x.toNat

/-- One rounding into a register: finite, with the sign given, and not past a power of two that bounds the exact
value. -/
theorem roundPack_spec {neg : Bool} {m k b : Nat} (hb : b < 277) (h : m ≤ 2 ^ b * 2 ^ k) :
    datum (BitVec.ofNat 32 (roundPack binary32Format neg m k)) = .fin neg (roundMag binary32Format m k) ∧
      roundMag binary32Format m k ≤ 2 ^ b := by
  have hle := roundMag_le (rep_two_pow b) h
  have hlt : roundMag binary32Format m k < 2 ^ 277 :=
    lt_of_le_of_lt hle (Nat.pow_lt_pow_right (by norm_num) hb)
  obtain ⟨h1, h2⟩ := packMag_spec (neg := neg) (roundMag_rep m k) hlt
  refine ⟨?_, hle⟩
  rw [datum, BitVec.toNat_ofNat, Nat.mod_eq_of_lt (by exact h1)]
  exact h2

/-- The sum of two finite data whose exact sum is bounded by a power of two. -/
theorem add_spec {a c : Binary32} {s t : Bool} {m n b : Nat} (hb : b < 277) (ha : datum a = .fin s m)
    (hc : datum c = .fin t n) (h : m + n ≤ 2 ^ b) :
    (signedMag s m + signedMag t n = 0 ∧ datum (binary32.add a c) = .fin (s && t) 0) ∨
    (signedMag s m + signedMag t n ≠ 0 ∧
      datum (binary32.add a c) = .fin (decide (signedMag s m + signedMag t n < 0))
        (roundMag binary32Format (signedMag s m + signedMag t n).natAbs 0) ∧
      roundMag binary32Format (signedMag s m + signedMag t n).natAbs 0 ≤ 2 ^ b) := by
  have hadd : binary32.add a c = BitVec.ofNat 32 (floatAdd binary32Format a.toNat c.toNat) := rfl
  unfold datum at ha hc
  rw [hadd, floatAdd, ha, hc]
  dsimp only
  by_cases hz : signedMag s m + signedMag t n = 0
  · left
    refine ⟨hz, ?_⟩
    rw [if_pos hz]
    obtain ⟨h1, h2⟩ := packMag_spec (neg := s && t) rep_zero (Nat.two_pow_pos 277)
    rw [datum, BitVec.toNat_ofNat, Nat.mod_eq_of_lt (by exact h1)]
    exact h2
  · right
    rw [if_neg hz]
    refine ⟨hz, roundPack_spec hb ?_⟩
    rw [pow_zero, mul_one]
    refine le_trans ?_ h
    cases s <;> cases t <;> simp [signedMag] <;> omega

theorem datum_neg {c : Binary32} {t : Bool} {n : Nat} (hc : datum c = .fin t n) :
    datum (BitVec.ofNat 32 (floatNeg binary32Format c.toNat)) = .fin (!t) n := by
  have hb := c.isLt
  have := floatNeg_spec hb hc
  have hlt : floatNeg binary32Format c.toNat < 2 ^ 32 := by
    unfold floatNeg
    simp only [binary32Format]
    norm_num at hb ⊢
    split <;> omega
  rw [datum, BitVec.toNat_ofNat, Nat.mod_eq_of_lt (by exact hlt)]
  exact this

theorem sub_eq_add_neg (a c : Binary32) :
    binary32.sub a c = binary32.add a (BitVec.ofNat 32 (floatNeg binary32Format c.toNat)) := by
  have hb := c.isLt
  have hlt : floatNeg binary32Format c.toNat < 2 ^ 32 := by
    unfold floatNeg
    simp only [binary32Format]
    norm_num at hb ⊢
    split <;> omega
  show BitVec.ofNat 32 (floatSub binary32Format a.toNat c.toNat) = BitVec.ofNat 32 _
  rw [floatSub, BitVec.toNat_ofNat, Nat.mod_eq_of_lt (by exact hlt)]

/-- A bounded sum or difference is finite and keeps the bound. -/
theorem add_bound {a c : Binary32} {s t : Bool} {m n b : Nat} (hb : b < 277) (ha : datum a = .fin s m)
    (hc : datum c = .fin t n) (h : m + n ≤ 2 ^ b) : ∃ u r, datum (binary32.add a c) = .fin u r ∧ r ≤ 2 ^ b := by
  rcases add_spec hb ha hc h with ⟨-, h1⟩ | ⟨-, h1, h2⟩
  · exact ⟨_, _, h1, Nat.zero_le _⟩
  · exact ⟨_, _, h1, h2⟩

theorem sub_bound {a c : Binary32} {s t : Bool} {m n b : Nat} (hb : b < 277) (ha : datum a = .fin s m)
    (hc : datum c = .fin t n) (h : m + n ≤ 2 ^ b) : ∃ u r, datum (binary32.sub a c) = .fin u r ∧ r ≤ 2 ^ b := by
  rw [sub_eq_add_neg]
  exact add_bound hb ha (datum_neg hc) h

/-- The product of two finite data, bounded by a power of two. -/
theorem mul_bound {a c : Binary32} {s t : Bool} {m n b : Nat} (hb : b < 277) (ha : datum a = .fin s m)
    (hc : datum c = .fin t n) (h : m * n ≤ 2 ^ b * 2 ^ 149) :
    ∃ u r, datum (binary32.mul a c) = .fin u r ∧ r ≤ 2 ^ b := by
  have hmul : binary32.mul a c = BitVec.ofNat 32 (floatMul binary32Format a.toNat c.toNat) := rfl
  unfold datum at ha hc
  rw [hmul, floatMul, ha, hc]
  obtain ⟨h1, h2⟩ := roundPack_spec (neg := s != t) hb (show m * n ≤ 2 ^ b * 2 ^ unitShift binary32Format from h)
  exact ⟨_, _, h1, h2⟩

/-- `int_to_num` is exact on -2^24..2^24 (R171). -/
theorem ofInt_spec {i : Int} (h : i.natAbs ≤ 2 ^ 24) :
    datum (binary32.ofInt i) = .fin (decide (i < 0)) (i.natAbs * 2 ^ 149) := by
  have hR : Rep (i.natAbs * 2 ^ 149) := by
    rcases h.lt_or_eq with h' | h'
    · exact rep_of_mul_two_pow h'
    · rw [h', ← pow_add]
      exact rep_two_pow _
  have hle : i.natAbs * 2 ^ 149 ≤ 2 ^ 173 * 2 ^ 0 := by
    rw [pow_zero, mul_one, show (2 : Nat) ^ 173 = 2 ^ 24 * 2 ^ 149 by rw [← pow_add]]
    exact Nat.mul_le_mul_right _ h
  obtain ⟨h1, -⟩ := roundPack_spec (neg := decide (i < 0)) (b := 173) (by norm_num) hle
  rw [roundMag_of_rep hR] at h1
  exact h1

end Sys2Proof
end

