-- ==== Sys2Proof/Laws/PerInstr.lean ====
section
/-! SUPPORT. Statements about every operation as syntax, one lemma per constructor. Family `EncodeFits`: the encoder's
word is no wider than its format (30_encoding.md R81), so the decoder never turns it away for its width. -/

namespace Sys2Proof.Laws

/-- The encoded word fits the format of its slot. -/
def EncodeFits.Statement (i : Instr) : Prop :=
  (encode i).word.toNat < 2 ^ formatWidth (slotFormat (encode i).slot)

theorem EncodeFits.reset : EncodeFits.Statement .reset := by unfold EncodeFits.Statement; decide

theorem EncodeFits.iter (inp : In) : EncodeFits.Statement (.iter inp) := (packIw inp).isLt

theorem EncodeFits.sample : EncodeFits.Statement .sample := by unfold EncodeFits.Statement; decide

theorem EncodeFits.phase : EncodeFits.Statement .phase := by unfold EncodeFits.Statement; decide

theorem EncodeFits.desired : EncodeFits.Statement .desired := by unfold EncodeFits.Statement; decide

theorem EncodeFits.measured : EncodeFits.Statement .measured := by unfold EncodeFits.Statement; decide

theorem EncodeFits.pwm : EncodeFits.Statement .pwm := by unfold EncodeFits.Statement; decide

theorem EncodeFits.out : EncodeFits.Statement .out := by unfold EncodeFits.Statement; decide

theorem EncodeFits.selNone : EncodeFits.Statement .selNone := by unfold EncodeFits.Statement; decide

theorem EncodeFits.selOff : EncodeFits.Statement .selOff := by unfold EncodeFits.Statement; decide

theorem EncodeFits.selRamp : EncodeFits.Statement .selRamp := by unfold EncodeFits.Statement; decide

theorem EncodeFits.selUnrec (w : BitVec 4) : EncodeFits.Statement (.selUnrec w) := by
  have h := w.isLt
  show (lowWord .select w.toNat).word.toNat < 2 ^ 4
  rw [lowWord_toNat _ (by omega)]
  exact h

theorem EncodeFits.selClosed : EncodeFits.Statement .selClosed := by unfold EncodeFits.Statement; decide

theorem EncodeFits.selOpen : EncodeFits.Statement .selOpen := by unfold EncodeFits.Statement; decide

theorem EncodeFits.srcOff : EncodeFits.Statement .srcOff := by unfold EncodeFits.Statement; decide

theorem EncodeFits.ramp : EncodeFits.Statement .ramp := by unfold EncodeFits.Statement; decide

theorem EncodeFits.pid : EncodeFits.Statement .pid := by unfold EncodeFits.Statement; decide

theorem EncodeFits.quad (bit0 : Bool) : EncodeFits.Statement (.quad bit0) := by
  unfold EncodeFits.Statement
  cases bit0 <;> decide

theorem EncodeFits.direct (bit1 : Bool) : EncodeFits.Statement (.direct bit1) := by
  unfold EncodeFits.Statement
  cases bit1 <;> decide

theorem EncodeFits.tachSkip : EncodeFits.Statement .tachSkip := by unfold EncodeFits.Statement; decide

theorem EncodeFits.tach (g : BitVec 2) : EncodeFits.Statement (.tach g) := by
  have h := g.isLt
  show (lowWord .gate g.toNat).word.toNat < 2 ^ 2
  rw [lowWord_toNat _ (by omega)]
  exact h

end Sys2Proof.Laws
end

