-- ==== Sys2Proof/Laws/PidRange.lean ====
section
/-! SUPPORT. The argument of 43_pid.md R181: from PIDState inside its bounds and speeds in 0..50, every intermediate
of the control law is finite, the clamped value has a floor in 0..100, and PIDState stays inside its bounds. -/

namespace Sys2Proof.Machine

theorem datum_kp : datum binary32.kp = .fin false (13743895 * 2 ^ 110) := by decide +kernel

theorem datum_ki : datum binary32.ki = .fin false (8646911 * 2 ^ 90) := by decide +kernel

theorem datum_kd : datum binary32.kd = .fin false (13421773 * 2 ^ 125) := by decide +kernel

theorem datum_hundred : datum binary32.hundred = .fin false (100 * 2 ^ 149) := by decide +kernel

theorem datum_zero : datum binary32.zero = .fin false 0 := by decide +kernel

/-- The running sum saturates: a magnitude up to 2^30 plus at most 50 rounds to at most 2^30, where binary32 values
are 128 apart. -/
theorem roundMag_saturates {m : Nat} (h : m ≤ 2 ^ 30 * 2 ^ 149 + 50 * 2 ^ 149) :
    roundMag binary32Format m 0 ≤ 2 ^ 30 * 2 ^ 149 := by
  rcases Nat.lt_or_ge (2 ^ 179) m with hm | hm
  · have hlog : m.log2 = 179 := log2_of_bounds hm.le (by norm_num at h ⊢; omega)
    have hround : roundHalfEven m (2 ^ 156) = 2 ^ 23 := by
      have hq : m / 2 ^ 156 = 2 ^ 23 := by norm_num at h hm ⊢; omega
      have hr : m % 2 ^ 156 ≤ 50 * 2 ^ 149 := by norm_num at h hm ⊢; omega
      unfold roundHalfEven
      rw [hq, if_neg]
      norm_num at hr ⊢
      omega
    unfold roundMag dropBits
    rw [hlog, show max 0 (179 - binary32Format.fracBits) = 156 from rfl, hround]
    norm_num
  · have := roundMag_le (k := 0) (rep_two_pow 179) (show m ≤ 2 ^ 179 * 2 ^ 0 by simpa using hm)
    rwa [← pow_add]

/-- PID.INTEGRAL keeps its bound. -/
theorem integral_step {p e : Binary32} {s t : Bool} {m n : Nat} (hp : datum p = .fin s m)
    (hm : m ≤ 2 ^ 30 * 2 ^ 149) (he : datum e = .fin t n) (hn : n ≤ 50 * 2 ^ 149) :
    ∃ u r, datum (binary32.add p e) = .fin u r ∧ r ≤ 2 ^ 30 * 2 ^ 149 := by
  rcases add_spec (b := 180) (by norm_num) hp he (by norm_num at hm hn ⊢; omega) with ⟨-, h⟩ | ⟨-, h, -⟩
  · exact ⟨_, _, h, Nat.zero_le _⟩
  · refine ⟨_, _, h, roundMag_saturates ?_⟩
    cases s <;> cases t <;> simp only [signedMag] <;> norm_num at hm hn ⊢ <;> omega

/-- The increment is finite and small. -/
theorem increment_bound {e i dv : Binary32} {s t u : Bool} {m n r : Nat} (he : datum e = .fin s m)
    (hm : m ≤ 50 * 2 ^ 149) (hi : datum i = .fin t n) (hn : n ≤ 2 ^ 30 * 2 ^ 149) (hd : datum dv = .fin u r)
    (hr : r ≤ 2 ^ 156) : ∃ v w, datum (pidIncrement binary32 e i dv) = .fin v w ∧ w ≤ 2 ^ 158 := by
  obtain ⟨_, a, ha, ha'⟩ := mul_bound (b := 140) (by norm_num) datum_kp he (by
    refine (Nat.mul_le_mul_left _ hm).trans ?_
    norm_num)
  obtain ⟨_, b, hb, hb'⟩ := mul_bound (b := 144) (by norm_num) datum_ki hi (by
    refine (Nat.mul_le_mul_left _ hn).trans ?_
    norm_num)
  obtain ⟨_, c, hc, hc'⟩ := mul_bound (b := 157) (by norm_num) datum_kd hd (by
    refine (Nat.mul_le_mul_left _ hr).trans ?_
    norm_num)
  obtain ⟨_, d, hd, hd'⟩ := add_bound (b := 145) (by norm_num) ha hb (by norm_num at ha' hb' ⊢; omega)
  exact add_bound (b := 158) (by norm_num) hd hc (by norm_num at hd' hc' ⊢; omega)

/-- The clamp puts a finite value, obtained by adding to a value that is not negative, into [0,100] and never at -0. -/
theorem pidClamp_spec {x v : Binary32} {t : Bool} {m n : Nat} (hx : datum x = .fin false m)
    (hm : m ≤ 100 * 2 ^ 149) (hv : datum v = .fin t n) (hn : n ≤ 2 ^ 158) :
    ∃ r, datum (pidClamp binary32 (binary32.add x v)) = .fin false r ∧ r ≤ 100 * 2 ^ 149 := by
  have hlt : ∀ a b : Binary32, binary32.lt a b = floatLt binary32Format a.toNat b.toNat := fun _ _ => rfl
  have hh : floatVal binary32Format binary32.hundred.toNat = _ := datum_hundred
  have hz : floatVal binary32Format binary32.zero.toNat = _ := datum_zero
  have key : ∃ u r, datum (binary32.add x v) = .fin u r ∧ (u = true → 0 < r) := by
    rcases add_spec (b := 159) (by norm_num) hx hv (by norm_num at hm hn ⊢; omega) with ⟨-, h⟩ | ⟨h0, h, -⟩
    · exact ⟨_, _, h, by simp⟩
    · exact ⟨_, _, h, fun _ => roundMag_pos (by omega)⟩
  obtain ⟨u, r, hy, hpos⟩ := key
  have hy' : floatVal binary32Format (binary32.add x v).toNat = .fin u r := hy
  unfold pidClamp
  rw [hlt, hlt, floatLt, floatLt, hh, hz, hy']
  dsimp only
  split_ifs with h1 h2
  · exact ⟨_, datum_hundred, le_rfl⟩
  · exact ⟨_, datum_zero, Nat.zero_le _⟩
  · cases u
    · refine ⟨r, hy, ?_⟩
      simp only [signedMag, decide_eq_true_eq, not_lt, Bool.false_eq_true, if_false] at h1
      exact_mod_cast h1
    · have := hpos rfl
      simp only [signedMag, decide_eq_true_eq, if_true, Bool.false_eq_true, if_false] at h2
      omega

/-- R181: inside the bounds the law's result exists, its ONTIME is in 0..100 and the new PIDState is inside the
bounds. -/
theorem pidLaw_of_inv {p : PidRegs Binary32} {d m : Nat} (hp : PidInv p) (hd : d ≤ 50) (hm : m ≤ 50) :
    ∃ q on, pidLaw binary32 p d m = some (q, on) ∧ PidInv q ∧ 0 ≤ on ∧ on ≤ 100 := by
  obtain ⟨s, a, ha, ha'⟩ := hp.integral
  obtain ⟨k, hk1, hk2, hk⟩ := hp.prevErr
  obtain ⟨x, hx, hx'⟩ := hp.internal
  have he := ofInt_spec (i := (d : Int) - (m : Int)) (by omega)
  have hn : ((d : Int) - (m : Int)).natAbs * 2 ^ 149 ≤ 50 * 2 ^ 149 := Nat.mul_le_mul_right _ (by omega)
  obtain ⟨_, i, hi, hi'⟩ := integral_step ha ha' he hn
  have hprev := ofInt_spec (i := k) (by omega)
  have hkn : k.natAbs * 2 ^ 149 ≤ 50 * 2 ^ 149 := Nat.mul_le_mul_right _ (by omega)
  rw [← hk] at hprev
  obtain ⟨_, v, hv, hv'⟩ := sub_bound (b := 156) (by norm_num) he hprev
    ((Nat.add_le_add hn hkn).trans (by norm_num))
  obtain ⟨_, w, hw, hw'⟩ := increment_bound he hn hi hi' hv hv'
  obtain ⟨r, hr, hr'⟩ := pidClamp_spec hx hx' hw hw'
  have hfloor : ∀ z : Binary32, binary32.floor z = floatFloor binary32Format z.toNat := fun _ => rfl
  have hr2 : floatVal binary32Format _ = .fin false r := hr
  refine ⟨⟨binary32.add p.integral (pidError binary32 d m), pidError binary32 d m, _⟩, ((r / 2 ^ 149 : Nat) : Int), ?_,
    ⟨⟨_, _, hi, hi'⟩, ⟨(d : Int) - (m : Int), ?_, ?_, rfl⟩, ⟨r, hr, hr'⟩⟩, ?_, ?_⟩
  · unfold pidLaw
    simp only [hfloor, pidError, floatFloor, hr2]
    rfl
  · omega
  · omega
  · exact Int.natCast_nonneg _
  · have : r / 2 ^ 149 ≤ 100 := Nat.div_le_of_le_mul (by rwa [Nat.mul_comm] at hr')
    exact_mod_cast this

/-- PIDState as RESET and the PID reset leave it is inside the bounds. -/
theorem zeroPid_inv : PidInv (zeroPid binary32) where
  integral := ⟨false, 0, datum_zero, Nat.zero_le _⟩
  prevErr := ⟨0, by norm_num, by norm_num, by decide +kernel⟩
  internal := ⟨0, datum_zero, Nat.zero_le _⟩

end Sys2Proof.Machine
end

