-- ==== Sys2Proof/Tests/Slice0.lean ====
section
/-! SUPPORT. The model's own tests: the WellFormed smoke test, every constructor's decoding from a word written out bit
by bit from 30_encoding.md, one step each from the vectors of 95_test_vectors.md (named in the comments; their
expected values are the spec's), and for every statement with hypotheses a witness that meets them all. -/

namespace Sys2Proof.Tests

open Sys2Proof Sys2Proof.Machine Sys2Proof.Certificates

/-! ### Helpers -/

/-- The configuration of the vectors (95_test_vectors.md): MAX_RPS 80 is the spec's own test value. -/
def testCfg : Cfg := { Config.hardware with maxRps := 80, iterRate := 0 }

/-- Every port low. -/
def idleIn : In where
  cnt := 0
  tachIn := false
  quadA := false
  quadB := false
  sel := 0b0000#4
  pwmFreq := 0
  resp := 0
  rampMult := 0
  altInfo := false

/-- The reset state under that configuration, with every port low. -/
def base : State := { State.reset with cfg := testCfg, ports := idleIn, latch := idleIn }

/-- Inputs at PWM_FREQ 100, everything else low. -/
def quiet : In := { idleIn with pwmFreq := 100 }

/-- What `f` reads from the next state. -/
def onNext {α : Type} (r : Result) (f : State → α) : Option α :=
  match r with
  | .next t => some (f t)
  | .fault _ => none
  | .refused _ => none

/-- The fault a result ends in. -/
def faultOf (r : Result) : Option Fault :=
  match r with
  | .next _ => none
  | .fault f => some f
  | .refused _ => none

/-- The refusal a result ends in. -/
def refusalOf (r : Result) : Option Refusal :=
  match r with
  | .next _ => none
  | .fault _ => none
  | .refused e => some e

/-- The instruction a word decodes to. -/
def decoded (e : Encoded) : Option Instr :=
  match decode e with
  | .ok i => some i
  | .error _ => none

/-- A next state with a property that was evaluated. -/
theorem next_with {r : Result} {P : State → Prop} [DecidablePred P]
    (h : onNext r (fun t => decide (P t)) = some true) : ∃ t, r = .next t ∧ P t := by
  cases r with
  | next t => exact ⟨t, rfl, by simpa [onNext] using h⟩
  | fault f => cases h
  | refused e => cases h

theorem ok_of_decoded {e : Encoded} {i : Instr} (h : decoded e = some i) : decode e = .ok i := by
  unfold decoded at h
  split at h
  · rename_i j hj
    rw [hj, Option.some.inj h]
  · cases h

/-! ### WellFormed: ill-formed terms are refused -/

theorem test_wf_selUnrec_refuses_no_event : (Instr.selUnrec 0b0000#4).wf = false := by decide

theorem test_wf_selUnrec_refuses_one_hot :
    [0b0001#4, 0b0010#4, 0b0100#4, 0b1000#4].all (fun w => !(Instr.selUnrec w).wf) = true := by decide

theorem test_wf_selUnrec_takes_eleven_words :
    ((List.range 16).filter fun n => (Instr.selUnrec (BitVec.ofNat 4 n)).wf).length = 11 := by decide

theorem test_wf_tach_refuses_gate_00 : (Instr.tach 0b00#2).wf = false := by decide

theorem test_wf_iter_refuses_what_the_word_cannot_hold :
    [{ quiet with cnt := 2 ^ 32 }, { quiet with pwmFreq := 2 ^ 32 }, { quiet with resp := 256 },
      { quiet with rampMult := 256 }].all (fun i => !(Instr.iter i).wf) = true ∧ (Instr.iter quiet).wf = true := by
  decide

/-! ### Decoding: words written out from R81 to R91 -/

-- R88: RST = 1.
theorem test_decode_reset : decoded ⟨.pin, 1#88⟩ = some .reset := by decide

theorem test_decode_no_reset : decoded ⟨.pin, 0#88⟩ = none := by decide

-- R91 and Program 1, iteration 4: cnt 150000, tach 1, a 0, b 1, sel none, freq 100, resp 10, mult 1, alt 0.
theorem test_decode_iter_program1 : decoded ⟨.iteration, 0x00850000003205000249F0#88⟩ = some (.iter
    { cnt := 150000, tachIn := true, quadA := false, quadB := true, sel := 0b0000#4, pwmFreq := 100,
      resp := 10, rampMult := 1, altInfo := false }) := by decide

-- R91, bit by bit: alt 87, mult 86:79, resp 78:71, freq 70:39, sel 38:35, b 34, a 33, tach 32, cnt 31:0.
theorem test_decode_iter_bits : decoded ⟨.iteration,
    0b1_00000010_00000011_00000000000000000000000000000101_0100_0_1_0_00000000000000000000000000000111#88⟩ = some (.iter
    { cnt := 7, tachIn := false, quadA := true, quadB := false, sel := 0b0100#4, pwmFreq := 5,
      resp := 3, rampMult := 2, altInfo := true }) := by decide

-- R87: FIXED words are empty.
theorem test_decode_fixed :
    [Slot.sample, .phase, .desired, .measured, .pwm, .out].map (fun k => decoded ⟨k, 0#88⟩) =
      [some .sample, some .phase, some .desired, some .measured, some .pwm, some .out] := by decide

-- R82: the five recognised words.
theorem test_decode_sel :
    [0b0000#88, 0b0001#88, 0b0010#88, 0b0100#88, 0b1000#88].map (fun w => decoded ⟨.select, w⟩) =
      [some .selNone, some .selOff, some .selRamp, some .selClosed, some .selOpen] := by decide

-- R82: the eleven others.
theorem test_decode_sel_unrec :
    [0b0011#4, 0b0101#4, 0b0110#4, 0b0111#4, 0b1001#4, 0b1010#4, 0b1011#4, 0b1100#4, 0b1101#4, 0b1110#4, 0b1111#4].all
      (fun w => decoded ⟨.select, w.setWidth 88⟩ == some (.selUnrec w)) = true := by decide

-- R85: 00 none, 01 RAMP, 10 and 11 QUAD.
theorem test_decode_duty_source :
    [0b00#88, 0b01#88, 0b10#88, 0b11#88].map (fun w => decoded ⟨.dutySource, w⟩) =
      [none, some .ramp, some (.quad false), some (.quad true)] := by decide

-- R85: 00 SRC_OFF, 01 and 11 DIRECT, 10 PID.
theorem test_decode_on_time_source :
    [0b00#88, 0b01#88, 0b10#88, 0b11#88].map (fun w => decoded ⟨.onTimeSource, w⟩) =
      [some .srcOff, some (.direct false), some .pid, some (.direct true)] := by decide

-- R86: 00 TACH_SKIP, every other word TACH.
theorem test_decode_gate :
    [0b00#88, 0b01#88, 0b10#88, 0b11#88].map (fun w => decoded ⟨.gate, w⟩) =
      [some .tachSkip, some (.tach 0b01#2), some (.tach 0b10#2), some (.tach 0b11#2)] := by decide

-- R81: a word wider than its format.
theorem test_decode_too_wide : decoded ⟨.select, 0b10000#88⟩ = none ∧ decoded ⟨.out, 1#88⟩ = none := by decide

-- R90, R94: the table's 33 rows; in the MODE format a word selects two rows or (in Off) one.
theorem test_table : opcodeTable.length = 33 ∧ rowsSelectedBy .mode 0b10 = [.PID, .QUAD] ∧
    rowsSelectedBy .mode 0b00 = [.SRC_OFF] := by decide

theorem test_decodeTableWord :
    decodeTableWord 8 0b0100 = some .selClosed ∧ decodeTableWord 0 0 = some .sample ∧
      (decodeTableWord 88 0x00850000003205000249F0).isSome = true := by decide

theorem test_withFetchWord_runs_it :
    onNext (step (base.withFetchWord 8 0b0100)) (fun t => (t.mode, t.pidRst)) = some (.closedLoop, true) := by decide

/-! ### PHASE and PWM -/

/-- PHASE on a counter and a frequency. -/
def phaseOf (cnt freq : Nat) : Option Nat :=
  onNext (exec .phase { base with latch := { idleIn with cnt := cnt, pwmFreq := freq } }) (·.wires.phase)

-- PH7, PH12, PH16.
theorem test_phase : phaseOf 123456789 100 = some 91 ∧ phaseOf 49999999 1 = some 99 ∧
    phaseOf 4294967295 100 = some 93 := by decide

-- PH19, PH20.
theorem test_phase_divide_fault :
    faultOf (exec .phase { base with latch := idleIn }) = some (.divideFault 0) ∧
    faultOf (exec .phase { base with latch := { idleIn with pwmFreq := 50000001 } }) =
      some (.divideFault 50000001) := by decide

-- PW5, PW6, PW2.
theorem test_pwm :
    onNext (exec .pwm { base with ontime := 50#7, wires := { zeroWires with phase := 49 } })
      (fun t => (t.pwmOut, t.out.pwmPin)) = some (true, true) ∧
    onNext (exec .pwm { base with ontime := 50#7, wires := { zeroWires with phase := 50 } }) (·.pwmOut) = some false ∧
    onNext (exec .pwm { base with wires := { zeroWires with phase := 99 } }) (·.pwmOut) = some false := by decide

/-! ### Tachometer -/

/-- TACH from (T.WIN, T.PREV2, T.PREV, T.ACC, RPS) on (CNT, TACH_IN); the same five after it. -/
def tachOf (win : Nat) (prev2 prev : Bool) (acc rps cnt : Nat) (pin : Bool) :
    Option (Nat × Bool × Bool × Nat × Nat) :=
  onNext (exec (.tach 0b01#2)
    { base with
      rps := rps
      tach := { win := win, prev := prev, prev2 := prev2, acc := acc }
      latch := { quiet with cnt := cnt, tachIn := pin } })
    fun t => (t.tach.win, t.tach.prev2, t.tach.prev, t.tach.acc, t.rps)

-- T2, T4, T7, T9.
theorem test_tach_window_change :
    tachOf 0 false true 7 3 25000000 true = some (1, true, true, 0, 7) ∧
    tachOf 171 false false 2 4 10 false = some (0, false, false, 0, 2) := by decide

theorem test_tach_edge :
    tachOf 0 false true 4 7 1000 true = some (0, true, true, 5, 7) ∧
    tachOf 0 false true 4 7 1000 false = some (0, true, false, 4, 7) := by decide

-- R129.
theorem test_tach_skip : onNext (exec .tachSkip { base with latch := { quiet with tachIn := true } }) (·.tach) =
    some zeroTach := by decide

-- M6, M9, M11.
theorem test_measured :
    [79, 200, 4294967295].map (fun r => onNext (exec .measured { base with rps := r }) (·.wires.measured)) =
      [some 49, some 50, some 50] := by decide

-- DS4.
theorem test_desired : onNext (exec .desired { base with duty := 99#7 }) (·.wires.desired) = some 49 := by decide

/-! ### Duty-cycle sources -/

/-- QUAD from (DUTY, RESP, Q.PREV_A) on (QUAD_A, QUAD_B). -/
def quadOf (duty : Percent) (resp : Nat) (prevA a b : Bool) : Option (Nat × Bool) :=
  onNext (exec (.quad true) { base with
    duty := duty, qPrevA := prevA, latch := { quiet with resp := resp, quadA := a, quadB := b } })
    fun t => (t.duty.toNat, t.qPrevA)

-- Q1, Q4, Q5, Q13.
theorem test_quad_steps :
    quadOf 50#7 5 false true false = some (55, true) ∧ quadOf 50#7 5 true false false = some (45, false) ∧
    quadOf 50#7 5 false false true = some (50, false) ∧ quadOf 50#7 0 false true false = some (50, true) := by decide

-- Q7, Q8, Q11, Q12.
theorem test_quad_clamps :
    quadOf 98#7 5 false true false = some (100, true) ∧ quadOf 3#7 5 false true true = some (0, true) ∧
    quadOf 50#7 255 false true false = some (100, true) ∧ quadOf 50#7 255 false true true = some (0, true) := by
  decide

/-- RAMP from (DUTY, RAMP.DIR, RAMP.ELAPSED) on RAMP_MULT. -/
def rampOf (duty : Percent) (dir : Bool) (elapsed : Nat) (mult : Nat) : Option (Nat × Bool × Nat) :=
  onNext (exec .ramp { base with
    duty := duty, ramp := { dir := dir, elapsed := elapsed }, latch := { quiet with rampMult := mult } })
    fun t => (t.duty.toNat, t.ramp.dir, t.ramp.elapsed)

-- RA2, RA3, RA14, RA16.
theorem test_ramp_counts :
    rampOf 0#7 false 998 1 = some (0, false, 999) ∧ rampOf 0#7 false 999 1 = some (1, false, 0) ∧
    rampOf 50#7 false 5000 1 = some (51, false, 0) ∧ rampOf 50#7 false 254999 255 = some (51, false, 0) := by
  decide

-- RA5, RA7, RA8, RA10.
theorem test_ramp_flips :
    rampOf 100#7 false 999 1 = some (100, true, 0) ∧ rampOf 1#7 true 999 1 = some (0, false, 0) ∧
    rampOf 0#7 true 999 1 = some (0, false, 0) ∧ rampOf 100#7 false 5 1 = some (100, true, 6) := by decide

/-! ### PID -/

/-- PIDState's registers under NUM = binary32. -/
def regs32 (s : State) : PidRegs Binary32 := (s.pid.regsAs .binary32).getD (zeroPid binary32)

/-- PID from (INTEGRAL, PREV_ERR, INTERNAL) on (DESIRED, MEASURED): the same three and ONTIME. -/
def pidOf (rst : Bool) (i e x : Binary32) (d m : Nat) : Option (Binary32 × Binary32 × Binary32 × Nat × Bool) :=
  onNext (exec .pid { base with
    pidRst := rst
    pid := .binary32 { integral := i, prevErr := e, internal := x }
    wires := { zeroWires with desired := d, measured := m } })
    fun t => ((regs32 t).integral, (regs32 t).prevErr, (regs32 t).internal, t.ontime.toNat, t.pidRst)

-- P1, calls 1 and 2.
theorem test_pid_law :
    pidOf false 0#32 0#32 0#32 25 0 = some (0x41C80000#32, 0x41C80000#32, 0x41A00148#32, 20, false) ∧
    pidOf false 0x41C80000#32 0x41C80000#32 0x41A00148#32 25 0 =
      some (0x42480000#32, 0x41C80000#32, 0x41A00290#32, 20, false) := by decide +kernel

-- P2, P4, P6, P8.
theorem test_pid_reset_and_clamp :
    [pidOf true 0x449A4000#32 0xC0400000#32 0x42650000#32 40 10, pidOf false 0#32 0#32 0#32 0 50,
      pidOf false 0#32 0#32 0x42C70000#32 50 0, pidOf false 0x42C80000#32 0x41200000#32 0x41F00000#32 20 15] =
    [some (0#32, 0#32, 0#32, 0, false), some (0xC2480000#32, 0xC2480000#32, 0#32, 0, false),
      some (0x42480000#32, 0x42480000#32, 0x42C80000#32, 100, false),
      some (0x42D20000#32, 0x40A00000#32, 0x41D00042#32, 26, false)] := by decide +kernel

-- P3 row 1: the reset call under PID_RESET_COMPUTES.
theorem test_pid_reset_computes :
    onNext (exec .pid { base with
      cfg := { testCfg with pidResetComputes := true }, pidRst := true
      wires := { zeroWires with desired := 40, measured := 10 } }) (fun t => ((regs32 t).internal, t.ontime.toNat)) =
      some (0x41C00189#32, 24) := by decide +kernel

-- R184: the first two values in exact arithmetic, 20.000625000375 and 20.001250001125.
theorem test_pid_exact :
    (pidLaw exactNum (zeroPid exactNum) 25 0).map (fun x => (x.1.internal, x.2)) =
      some (20000625000375 / 1000000000000, 20) ∧
    (pidLaw exactNum { integral := 25, prevErr := 25, internal := 20000625000375 / 1000000000000 } 25 0).map
      (fun x => (x.1.internal, x.2)) = some (20001250001125 / 1000000000000, 20) := by decide +kernel

-- V6, R181: a NaN forced into PIDState.
theorem test_pid_nan_is_a_fault_of_the_test :
    faultOf (exec .pid { base with pid := .binary32 { integral := 0#32, prevErr := 0#32, internal := 0x7FC00000#32 } }) =
      some .pidNotANumber := by decide +kernel

/-! ### Mode State Machine (vectors SE) -/

/-- The start state of section 2.8, in a mode. -/
def seStart (m : Mode) : State := { base with
  mode := m, duty := 37#7, rps := 12, ontime := 37#7
  pid := .binary32 { zeroPid binary32 with internal := 0x41480000#32 } }

/-- MODE, DUTY, RPS, PID_RST and PID.INTERNAL after an operation from that start. -/
def seAfter (m : Mode) (op : Instr) : Option (Mode × Nat × Nat × Bool × Binary32) :=
  onNext (exec op (seStart m)) fun t => (t.mode, t.duty.toNat, t.rps, t.pidRst, (regs32 t).internal)

-- SE1, SE6, SE11.
theorem test_sel_off_none :
    [seAfter .off .selOff, seAfter .ramp .selOff, seAfter .openLoop .selNone] =
    [some (.off, 37, 12, false, 0x41480000#32), some (.off, 37, 12, false, 0x41480000#32),
      some (.openLoop, 37, 12, false, 0x41480000#32)] := by decide

-- SE2, SE5, SE4, SE9.
theorem test_sel_ramp_open :
    [seAfter .off .selRamp, seAfter .ramp .selRamp, seAfter .off .selOpen, seAfter .closedLoop .selOpen] =
    [some (.ramp, 0, 0, false, 0x41480000#32), some (.ramp, 37, 12, false, 0x41480000#32),
      some (.openLoop, 0, 0, false, 0x41480000#32), some (.openLoop, 0, 0, false, 0x41480000#32)] := by decide

-- SE7, SE8, SE14.
theorem test_sel_closed_unrec :
    [seAfter .ramp .selClosed, seAfter .closedLoop .selClosed, seAfter .closedLoop (.selUnrec 0b0110#4)] =
    [some (.closedLoop, 0, 0, true, 0x41480000#32), some (.closedLoop, 37, 12, false, 0x41480000#32),
      some (.closedLoop, 37, 12, false, 0x41480000#32)] := by decide

/-! ### GATE, SRC_OFF, DIRECT, OUT, SAMPLE, RESET (vectors G and O) -/

-- G1, G2, G3, G5.
theorem test_gate :
    gateWord { base with ontime := 0#7, pwmOut := false } = 0b01#2 ∧
    gateWord { base with ontime := 30#7, pwmOut := true } = 0b10#2 ∧
    gateWord { base with ontime := 30#7, pwmOut := false } = 0b00#2 ∧
    gateWord { base with ontime := 100#7, pwmOut := true } = 0b10#2 := by decide

-- O1, O2.
theorem test_src_off_direct :
    onNext (exec .srcOff { base with duty := 10#7, ontime := 37#7 }) (fun t => (t.ontime, t.duty)) = some (0#7, 10#7) ∧
    onNext (exec (.direct false) { base with duty := 30#7 }) (·.ontime) = some 30#7 := by decide

-- O4.
theorem test_out :
    onNext (exec .out { base with
      mode := .openLoop, duty := 30#7, ontime := 30#7, latch := { quiet with altInfo := true } }) (·.out) =
    some { pwmPin := false, oMode := 3#2, oAlt := true, oDuty := 30#7, oRps := 0, oDesired := 15#6, oOntime := 30#7,
           oFreq := 100 } := by decide

theorem test_sample : onNext (exec .sample { base with ports := quiet }) (·.latch) = some quiet := by decide

-- O5, from a faulted run.
theorem test_reset :
    onNext (exec .reset { seStart .closedLoop with faulted := true, pwmOut := true }) (fun t => decide (t = base)) =
      some true := by decide

/-! ### Iterations -/

/-- The step on a packed iteration word. -/
def itStep (s : State) (iw : IterationWord) : Result := step (withPlatform s false (unpackIw iw))

-- Program 1, iteration 8, from the state its row 7 gives.
theorem test_iter_program1_8 :
    onNext (itStep { base with
      mode := .openLoop, duty := 30#7, ontime := 30#7, qPrevA := true
      tach := { zeroTach with prev := true } } 0x0085000000320300086470#88)
      (fun t => (t.wires.phase, t.duty, t.ontime, t.pwmOut, t.tach.acc, t.tach.prev2)) =
      some (10, 30#7, 30#7, true, 1, true) := by decide +kernel

-- Program 3, iteration 4, from the state its row 3 gives.
theorem test_iter_program3_4 :
    onNext (itStep { base with
      mode := .closedLoop, duty := 25#7, ontime := 9#7, pwmOut := true, qPrevA := true
      tach := { win := 0, prev := true, prev2 := true, acc := 40 }
      pid := .binary32 { integral := 0x41C00000#32, prevErr := 0x41400000#32, internal := 0x41199C10#32 } }
      0x008C8000003204000F7CD8#88)
      (fun t => (t.duty, t.ontime, regs32 t, t.tach.prev)) =
      some (50#7, 20#7, { integral := 0x42440000#32, prevErr := 0x41C80000#32, internal := 0x41A00283#32 }, false) := by
  decide +kernel

-- Program 4, iteration 14, and O6: the fault, and the state it rests in.
theorem test_iter_divide_fault :
    faultOf (itStep base 0x00808000000001017D7854#88) = some (.divideFault 0) ∧
    restAfter (withPlatform base false (unpackIw 0x00808000000001017D7854#88)) = { base with faulted := true } := by decide

theorem test_step_reset_has_priority :
    onNext (step (withPlatform { seStart .ramp with faulted := true } true idleIn)) (fun t => decide (t = base)) =
      some true := by decide

/-! ### Witnesses: for every statement with hypotheses, inputs that meet them all

The states without a next state in the hypotheses are given directly; the others through `next_with`. -/

theorem base_wf : base.cfg.wf = true := by decide

/-- An iteration's inputs at a counter value. -/
def at_ (cnt : Nat) : In := { quiet with cnt := cnt }

theorem base_inv : Inv base where
  cfg := by decide
  num := rfl
  fits := ⟨by decide, by decide, by decide, by decide⟩
  duty := by decide
  ontime := by decide
  phase := by decide
  desired := by decide
  measured := by decide
  pid := ⟨_, rfl, {
    integral := ⟨false, 0, by decide, by decide⟩
    prevErr := ⟨0, by decide, by decide, by decide +kernel⟩
    internal := ⟨0, by decide, by decide⟩ }⟩

/-- The invariant looks neither at the stimulus nor at the ports. -/
theorem base_inv_with (f : List Stimulus) : Inv { base with feed := f } :=
  ⟨base_inv.cfg, base_inv.num, ⟨base_inv.fits.1, base_inv.fits.2, base_inv.fits.3, base_inv.fits.4⟩, base_inv.duty,
    base_inv.ontime, base_inv.phase, base_inv.desired, base_inv.measured, base_inv.pid⟩

theorem witness_ResetHasPriority : ({ base with faulted := true } : State).cfg.wf = true := by decide

-- Both ends of the legal range, and both degenerate sides.
theorem witness_PhaseIsScaledCounterRemainder :
    base.cfg.wf = true ∧
    (1 ≤ { quiet with pwmFreq := 1 }.pwmFreq ∧ 1 ≤ base.cfg.clockFreq) ∧
    (1 ≤ { quiet with pwmFreq := 50000000 }.pwmFreq ∧ 50000000 ≤ base.cfg.clockFreq) ∧
    base.latch.pwmFreq = 0 ∧ base.cfg.clockFreq < { quiet with pwmFreq := 50000001 }.pwmFreq := by decide

-- The last counter value from which one more period stays short of the wrap.
theorem witness_PhaseIsPeriodic : ∃ t, exec .phase { base with latch := at_ 4294467295 } = .next t ∧
    (at_ 4294467295).cnt + base.cfg.clockFreq / (at_ 4294467295).pwmFreq < 2 ^ base.cfg.cntW :=
  next_with (P := fun _ => (at_ 4294467295).cnt + base.cfg.clockFreq / (at_ 4294467295).pwmFreq <
    2 ^ base.cfg.cntW) (by decide)

-- The smallest period R107 allows, at full duty.
theorem witness_RealisedDutyIsOntimeHundredths :
    base.cfg.wf = true ∧ EnvFreq base.cfg { quiet with pwmFreq := 500000 } ∧ (100#7).toNat ≤ 100 ∧
    base.cfg.clockFreq / 500000 = 100 * 1 := by
  refine ⟨by decide, ⟨by decide, by decide⟩, by decide, by decide⟩

theorem witness_TachAndMeasured : base.cfg.wf = true := base_wf

/-- Inputs at a counter value with a tachometer level. -/
def tick (cnt : Nat) (pin : Bool) : In := { quiet with cnt := cnt, tachIn := pin }

-- All four clauses, up to the last tick of window 0 (24,999,999) and, in the third, from its first: a one-sample
-- pulse, a three-sample one, a low sample in front of a pulse, and a pulse under way.
theorem witness_TachFiltersGlitchesAndCountsOnce :
    base.cfg.wf = true ∧ base.tach.win < 2 ^ base.cfg.winW ∧
    (∀ x ∈ [tick 24999998 true, tick 24999999 false], window base.cfg x = base.tach.win) ∧
    [tick 24999998 true, tick 24999999 false].map (·.tachIn) = [true, false] ∧
    base.tach.prev = false ∧
    (∀ x ∈ [tick 24999997 true, tick 24999998 true, tick 24999999 true],
      window base.cfg x = base.tach.win ∧ x.tachIn = true) ∧
    (window base.cfg (tick 0 false) = base.tach.win ∧ (tick 0 false).tachIn = false) ∧
    ({ base with tach := { zeroTach with prev := true, prev2 := true } } : State).tach.win = base.tach.win := by
  decide

-- R131's third clause runs: the pulse before the gap is not counted again, the one after it is counted once.
theorem test_tach_low_gap :
    onNext (callsOn (.tach 0b01#2) [tick 0 false, tick 1 true, tick 2 true, tick 3 true]
      { base with tach := { win := 0, prev := true, prev2 := true, acc := 5 } }) (·.tach.acc) = some 6 := by decide

theorem witness_RpsHoldsWithinAWindow : ∃ t, exec (.iter (at_ 24999999)) base = .next t ∧ t.mode = base.mode ∧
    window base.cfg (at_ 24999999) = base.tach.win :=
  next_with (P := fun t => t.mode = base.mode ∧ window base.cfg (at_ 24999999) = base.tach.win) (by decide)

/-- One tick before the window's end, with a pulse counted at every tick so far. -/
def fullWindow : State := { base with
  tach := { win := 0, prev := true, prev2 := false, acc := 24999998 }, latch := at_ 24999998 }

theorem witness_AccumulatorBoundKeptUnderMonotoneCounter :
    AccInv fullWindow ∧ EnvMono false true fullWindow.latch (sampleIn fullWindow.cfg (tick 24999999 true)) ∧
    ∃ t, exec (.iter (tick 24999999 true)) fullWindow = .next t ∧ t.tach.acc = 24999999 :=
  ⟨⟨by decide, by decide⟩, fun _ => ⟨by decide, fun _ => by decide⟩,
    next_with (P := fun t => t.tach.acc = 24999999) (by decide)⟩

-- The three branches: up, down, no transition.
theorem witness_QuadStepsDutyByResp :
    base.cfg.wf = true ∧
    ((true ≠ base.qPrevA) ∧ true ≠ false) ∧ ((true ≠ base.qPrevA) ∧ ¬(true ≠ true)) ∧ ¬(false ≠ base.qPrevA) := by
  decide

-- A rise that ends exactly at 100 and a fall that ends exactly at 0.
theorem witness_QuadTurnMovesTwoSteps :
    base.cfg.wf = true ∧ base.qPrevA = false ∧
    (90#7).toNat ≤ 100 ∧ (90#7).toNat + 2 * (sampleIn base.cfg { quiet with resp := 5 }).resp ≤ 100 ∧
    (10#7).toNat ≤ 100 ∧ 2 * (sampleIn base.cfg { quiet with resp := 5 }).resp ≤ (10#7).toNat := by decide

-- A step and no step; both directions.
theorem witness_RampCountsStepsFlipsClamps :
    base.cfg.wf = true ∧ 1000 * { quiet with rampMult := 1 }.rampMult ≤ 999 + 1 ∧
    ¬(1000 * { quiet with rampMult := 1 }.rampMult ≤ 998 + 1) ∧ base.ramp.dir = false := by decide

-- The smallest and the largest multiplier; j at the top of the rise, the start of the fall and the end of the round.
theorem witness_RampSweepsUpAndDownForEver :
    base.cfg.wf = true ∧ base.duty = 0#7 ∧ base.ramp = { dir := false, elapsed := 0 } ∧
    (1 ≤ 1 ∧ 1000 * 1 ≤ 2 ^ base.cfg.elapsedW) ∧ (1 ≤ 255 ∧ 1000 * 255 ≤ 2 ^ base.cfg.elapsedW) ∧
    100000 / (1000 * 1) % 200 = 100 ∧ 101000 / (1000 * 1) % 200 = 101 ∧ 200000 / (1000 * 1) % 200 = 0 := by decide

theorem witness_RampElapsedStaysBelow255000 :
    base.cfg.wf = true ∧ base.cfg.multW = 8 ∧ base.cfg.elapsedW = 32 ∧
    ∃ t, andThen (exec .sample
        { base with ports := { quiet with rampMult := 255 }, ramp := { dir := false, elapsed := 254998 } })
      (exec .ramp) = .next t ∧ t.ramp.elapsed = 254999 :=
  ⟨by decide, rfl, rfl, next_with (P := fun t => t.ramp.elapsed = 254999) (by decide)⟩

theorem witness_DutySourcesClampEveryWrite :
    base.cfg.wf = true ∧
    (∃ t, exec (.quad false) { base with duty := 127#7 } = .next t ∧ t.duty.toNat = 100) ∧
    ∃ t, exec .ramp { base with duty := 127#7 } = .next t ∧ t.duty.toNat = 100 :=
  ⟨base_wf, next_with (P := fun t => t.duty.toNat = 100) (by decide),
    next_with (P := fun t => t.duty.toNat = 100) (by decide)⟩

-- P1, call 1, with the intermediates the spec prints.
theorem witness_PidRunsTheControlLaw :
    base.pidRst = false ∧ base.cfg.num = .binary32 ∧ base.pid = .ofRegs .binary32 (zeroPid binary32) ∧
    binary32.ofInt (((25 : Nat) : Int) - ((0 : Nat) : Int)) = 0x41C80000#32 ∧
    binary32.add (zeroPid binary32).integral 0x41C80000#32 = 0x41C80000#32 ∧
    binary32.sub 0x41C80000#32 (zeroPid binary32).prevErr = 0x41C80000#32 ∧
    binary32.mul 0x37D1B717#32 0x41C80000#32 = 0x3A23D70A#32 ∧
    binary32.mul 0x2D83F0FF#32 0x41C80000#32 = 0x2FCE288E#32 ∧
    binary32.mul 0x3F4CCCCD#32 0x41C80000#32 = 0x41A00000#32 ∧
    binary32.add (binary32.add 0x3A23D70A#32 0x2FCE288E#32) 0x41A00000#32 = 0x41A00148#32 ∧
    binary32.add (zeroPid binary32).internal 0x41A00148#32 = 0x41A00148#32 ∧
    binary32.lt 0x42C80000#32 0x41A00148#32 = false ∧ binary32.lt 0x41A00148#32 0x00000000#32 = false ∧
    binary32.floor 0x41A00148#32 = some 20 := by decide +kernel

theorem witness_PidResetIsSingleShot :
    ({ base with pidRst := true } : State).cfg.pidResetComputes = false ∧
    ({ base with pidRst := true, cfg := { testCfg with pidResetComputes := true } } : State).cfg.pidResetComputes = true ∧
    ({ base with pidRst := true } : State).wires.desired = ({ base with pidRst := true } : State).wires.measured := by
  decide

-- A NaN in PIDState, and PIDState of another NUM.
theorem witness_PidStopsWithoutAFloor :
    base.pidRst = false ∧
    (pidLaw binary32 { integral := 0#32, prevErr := 0#32, internal := 0x7FC00000#32 } 0 0).isNone = true ∧
    ∀ p : PidRegs Binary32, PidState.binary64 (zeroPid binary64) ≠ .ofRegs .binary32 p :=
  ⟨rfl, by decide +kernel, fun _ => PidState.noConfusion⟩

-- Both ends of the exact range; a value between two integers and both ends of 0..100.
theorem witness_ConversionsAreExact :
    (-2 ^ 24 : Int) ≤ 2 ^ 24 ∧ units 0x00000000#32 = some 0 ∧ units 0x42C80000#32 = some (100 * 2 ^ 149) ∧
    units 0x41A7EB85#32 = some (11004805 * 2 ^ 130) ∧ (11004805 * 2 ^ 130 : Int) ≤ 100 * 2 ^ 149 := by decide +kernel

-- 2^24 + 1 lies half-way between two data; the sum is the even one, 2^24, and the other one is 2^24 + 2.
theorem witness_SumsRoundToNearestEven :
    units 0x4B800000#32 = some (2 ^ 24 * 2 ^ 149) ∧ units 0x3F800000#32 = some (2 ^ 149) ∧
    units 0x4B800001#32 = some ((2 ^ 24 + 2) * 2 ^ 149) ∧
    units (binary32.add 0x4B800000#32 0x3F800000#32) = some (2 ^ 24 * 2 ^ 149) ∧
    units (binary32.sub 0x4B800000#32 0xBF800000#32) = some (2 ^ 24 * 2 ^ 149) ∧
    units 0xBF800000#32 = some (-2 ^ 149) := by decide +kernel

-- (2^12 + 1) squared is 2^24 + 2^13 + 1, half-way between two data; the product is the even one.
theorem witness_ProductsRoundToNearestEven :
    units 0x45800800#32 = some ((2 ^ 12 + 1) * 2 ^ 149) ∧
    units 0x4B801000#32 = some ((2 ^ 24 + 2 ^ 13) * 2 ^ 149) ∧
    units 0x4B801001#32 = some ((2 ^ 24 + 2 ^ 13 + 2) * 2 ^ 149) ∧
    units (binary32.mul 0x45800800#32 0x45800800#32) = some ((2 ^ 24 + 2 ^ 13) * 2 ^ 149) := by decide +kernel

/-- Inputs with a selector word. -/
def key (w : BitVec 4) : In := { quiet with sel := w }

-- A change of mode by an event: Off to ClosedLoop, with the reset consumed in the same iteration.
theorem witness_ModeChangesOnlyByASelectorEvent : ∃ t, exec (.iter (key 0b0100#4)) base = .next t ∧
    t.mode = .closedLoop ∧ base.pidRst = false ∧ t.pidRst = false :=
  next_with (P := fun t => t.mode = .closedLoop ∧ base.pidRst = false ∧ t.pidRst = false) (by decide +kernel)

theorem witness_SameModeEventIsNoEvent :
    requestedMode (key 0b0001#4).sel = some base.mode ∧
    ∃ t, exec (.iter { key 0b0001#4 with sel := 0b0000#4 }) base = .next t ∧ t.mode = .off :=
  ⟨by decide, next_with (P := fun t => t.mode = .off) (by decide)⟩

-- Both clauses: entry to ClosedLoop, and staying outside it.
theorem witness_PidStateInvisibleOutsideClosedLoop :
    base.mode ≠ .closedLoop ∧ (∃ t, exec (.iter (key 0b0100#4)) base = .next t ∧ t.mode = .closedLoop) ∧
    ∃ t, exec (.iter (key 0b0000#4)) base = .next t ∧ t.mode ≠ .closedLoop :=
  ⟨by decide, next_with (P := fun t => t.mode = .closedLoop) (by decide +kernel),
    next_with (P := fun t => t.mode ≠ .closedLoop) (by decide)⟩

theorem witness_SampleLatchesEveryPort :
    (∃ t, exec .sample { base with ports := quiet } = .next t ∧ t.latch = quiet) ∧
    elementaryOp .pwm ∧ Instr.pwm.mnemonic ≠ .SAMPLE ∧ ∃ t, exec .pwm base = .next t ∧ t.latch = base.latch :=
  ⟨next_with (P := fun t => t.latch = quiet) (by decide), ⟨by decide, by decide⟩, by decide,
    next_with (P := fun t => t.latch = base.latch) (by decide)⟩

theorem witness_DisplayShowsTheIterationsFinalState :
    Fits base ∧ ∃ t, exec (.iter (key 0b1000#4)) base = .next t ∧ t.out.oMode = 3#2 :=
  ⟨base_inv.fits, next_with (P := fun t => t.out.oMode = 3#2) (by decide)⟩

theorem witness_IterIsTheSequenceOfItsOperations : base.cfg.wf = true ∧ base.faulted = false := by decide

-- Inv, a run that is not faulted, and the last legal PWM_FREQ.
theorem witness_IterCompletesInsideTheInvariant :
    Inv base ∧ base.faulted = false ∧ EnvFreq base.cfg (sampleIn base.cfg { quiet with pwmFreq := 50000000 }) :=
  ⟨base_inv, rfl, by decide, by decide⟩

theorem witness_OffDrivesNothingAndKeepsMeasuring :
    ∃ t, exec (.iter (key 0b0001#4)) (seStart .openLoop) = .next t ∧ t.mode = .off :=
  next_with (P := fun t => t.mode = .off) (by decide)

-- The four clauses: in Off, outside Ramp, outside ClosedLoop; and with the output off while ONTIME is not 0.
theorem witness_UncalledComponentsKeepTheirRecords :
    (∃ t, exec (.iter quiet) base = .next t ∧ t.mode = .off ∧ t.mode ≠ .ramp ∧ t.mode ≠ .closedLoop) ∧
    ∃ t, exec (.iter (at_ 250000)) { base with mode := .openLoop, duty := 30#7 } = .next t ∧
      t.pwmOut = false ∧ t.ontime ≠ 0#7 :=
  ⟨next_with (P := fun t => t.mode = .off ∧ t.mode ≠ .ramp ∧ t.mode ≠ .closedLoop) (by decide),
    next_with (P := fun t => t.pwmOut = false ∧ t.ontime ≠ 0#7) (by decide)⟩

-- The gate closed (PHASE = ONTIME, the boundary) and open.
theorem witness_GateOpensWhenDrivenOrIdle :
    (∃ t, exec .pwm { base with ontime := 30#7, wires := { zeroWires with phase := 30 } } = .next t ∧
      gateWord t = 0b00#2) ∧
    ∃ t, exec .pwm base = .next t ∧ gateWord t = 0b01#2 :=
  ⟨next_with (P := fun t => gateWord t = 0b00#2) (by decide), next_with (P := fun t => gateWord t = 0b01#2) (by decide)⟩

-- A write by the owner, and PID_RST changing both ways.
theorem witness_OnlyTheOwnerWritesARegister :
    elementaryOp .selClosed ∧ (∃ t, exec .selClosed base = .next t ∧ t.pidRst ≠ base.pidRst) ∧
    elementaryOp .pid ∧ ∃ t, exec .pid { base with pidRst := true } = .next t ∧ t.pidRst ≠ true :=
  ⟨⟨by decide, by decide⟩, next_with (P := fun t => t.pidRst ≠ base.pidRst) (by decide), ⟨by decide, by decide⟩,
    next_with (P := fun t => t.pidRst ≠ true) (by decide)⟩

theorem witness_OnlyPwmAndOutWriteThePorts :
    elementaryOp .pwm ∧ (∃ t, exec .pwm base = .next t ∧ t.out.oDuty = base.out.oDuty) ∧
    (OutPort.oDuty = .pwmPin → Instr.pwm.mnemonic ≠ .PWM) ∧ (OutPort.oDuty ≠ .pwmPin → Instr.pwm.mnemonic ≠ .OUT) :=
  ⟨⟨by decide, by decide⟩, next_with (P := fun t => t.out.oDuty = base.out.oDuty) (by decide), by decide, by decide⟩

theorem witness_ConfigurationIsFixedForTheRun :
    ∃ t, step (withPlatform base false quiet) = .next t ∧ t.cfg = base.cfg :=
  next_with (P := fun t => t.cfg = base.cfg) (by decide)

theorem witness_StepKeepsTheInvariant :
    Inv (withPlatform base false quiet) ∧ ∃ t, step (withPlatform base false quiet) = .next t ∧ t.mode = .off :=
  ⟨base_inv_with _, next_with (P := fun t => t.mode = .off) (by decide)⟩

-- A frequency of 0, one above CLOCK_FREQ by one, and one that is 0 at the port's width.
theorem witness_DivideFaultExactlyOnDegenerateFreq :
    base.cfg.wf = true ∧ base.faulted = false ∧ (sampleIn base.cfg idleIn).pwmFreq = 0 ∧
    base.cfg.clockFreq < (sampleIn base.cfg { idleIn with pwmFreq := 50000001 }).pwmFreq ∧
    (sampleIn base.cfg { idleIn with pwmFreq := 2 ^ 32 }).pwmFreq = 0 := by decide

theorem witness_OnlyResetLeavesAFaultedRun :
    ({ base with faulted := true } : State).cfg.wf = true ∧ ({ base with faulted := true } : State).faulted = true ∧
    ∃ t, exec .reset { base with faulted := true } = .next t ∧ t.faulted = false :=
  ⟨by decide, rfl, next_with (P := fun t => t.faulted = false) (by decide)⟩

-- Each constraint of R9 broken alone, at its boundary, and a constant with another value.
theorem witness_BadConfigurationIsRefused :
    ({ testCfg with clockFreq := 1 } : Cfg).clockFreq < 2 ∧ ({ testCfg with maxRps := 0 } : Cfg).maxRps = 0 ∧
    2 ^ ({ testCfg with cntW := 25 } : Cfg).cntW ≤ testCfg.clockFreq ∧
    2 ^ ({ testCfg with freqW := 25 } : Cfg).freqW ≤ testCfg.clockFreq ∧
    ({ testCfg with rampUnit := 999 } : Cfg).rampUnit ≠ 1000 ∧
    refusalOf (step { base with cfg := { testCfg with maxRps := 0 } }) = some .configOutOfRange ∧
    refusalOf (step { base with cfg := { testCfg with rampUnit := 999 } }) = some .configOutOfRange := by decide

-- The ways a step is given its instruction: the pin, the ports, a bench word, IW on the bench, free values, and a
-- table word.
theorem witness_StepRunsTheDecodedInstruction :
    (fetch (withPlatform base true idleIn)).1 = .ok .reset ∧
    (fetch (withPlatform base false idleIn)).1 = .ok (.iter idleIn) ∧
    (fetch { base with feed := [.bench ⟨.gate, 0b10#88⟩] }).1 = .ok (.tach 0b10#2) ∧
    (fetch { base with feed := [.bench ⟨.iteration, packIw quiet⟩] }).1 = .ok (.iter quiet) ∧
    (∃ i, (fetch base).1 = .ok i) ∧ decodeTableWord 8 0b0100 = some .selClosed :=
  ⟨rfl, rfl, ok_of_decoded (e := ⟨.gate, 0b10#88⟩) (by decide),
    ok_of_decoded (e := ⟨.iteration, packIw quiet⟩) (by decide), ⟨_, rfl⟩, by decide⟩

-- A bench word that selects nothing is refused by name.
theorem test_step_undecodable :
    refusalOf (step { base with feed := [.bench ⟨.dutySource, 0#88⟩] }) = some (.undecodable .noDutySource) := by decide

theorem witness_Decoding :
    (Instr.selUnrec 0b1111#4).wf = true ∧ (Instr.tach 0b11#2).wf = true ∧ (Instr.iter quiet).wf = true ∧
    decoded ⟨.gate, 0b11#88⟩ = some (.tach 0b11#2) ∧ (0b11#88).toNat < 2 ^ formatWidth .gate ∧
    Mnemonic.TACH ∈ rowsSelectedBy .gate 0b11 := by decide

/-! ### The environment assumptions of R262 hold of some runs and not of others -/

-- A key press of ClosedLoop in the second of three iterations.
theorem witness_EnvSel : EnvSel [(1, .closedLoop)] [quiet, key 0b0100#4, quiet] := by
  refine ⟨by decide, by decide, ?_⟩
  intro n i h hn
  match n, h with
  | 0, h => cases h; rfl
  | 1, _ => exact absurd rfl (hn _ (List.mem_singleton.2 rfl))
  | 2, h => cases h; rfl
  | n + 3, h => cases h

-- The same key held over two iterations is not one press.
theorem test_envSel_one_iteration_per_press : ¬EnvSel [(0, .ramp)] [key 0b0010#4, key 0b0010#4] := by
  intro h
  have := h.2.2 1 _ rfl (by decide)
  exact absurd this (by decide)

-- ENV-MONO: a counter that stands still is allowed when no time passed, and only then.
theorem test_envMono :
    EnvMono false false (at_ 7) (at_ 7) ∧ ¬EnvMono false true (at_ 7) (at_ 7) ∧ EnvMono true true (at_ 7) (at_ 0) :=
  ⟨fun _ => ⟨by decide, by intro h; cases h⟩, fun h => absurd ((h rfl).2 rfl) (by decide), by intro h; cases h⟩

-- R8, D3, U1: the counter's width is the configuration's; at CNT_W = 40 the sampled counter keeps 33 bits.
theorem test_counter_width_is_the_configurations :
    (sampleIn { testCfg with cntW := 40 } (at_ (2 ^ 32 + 5))).cnt = 2 ^ 32 + 5 ∧
    (sampleIn testCfg (at_ (2 ^ 32 + 5))).cnt = 5 := by decide

/-- A state whose NUM is the exact rationals. -/
def exactBase : State := { base with cfg := { testCfg with num := .exact }, pid := .exact (zeroPid exactNum) }

-- R184 through PID itself, under NUM = exact: 20.000625000375.
theorem test_pid_num_is_the_configurations :
    onNext (exec .pid { exactBase with wires := { zeroWires with desired := 25 } })
      (fun t => (t.pid.regsAs .exact).map (fun p => (p.internal, t.ontime.toNat))) =
      some (some (20000625000375 / 1000000000000, 20)) := by decide +kernel

end Sys2Proof.Tests
end

section
/-! The ownership table of 10_state.md R37: what the selector and PID may write, then the table over all operations. -/

namespace Sys2Proof.Machine

/-- Entry to Off writes MODE alone, also where the mode is Off already (R202, R210). -/
theorem selectMode_off (s : State) : selectMode .off s = s.setMode .off := by
  unfold selectMode
  split_ifs with h
  · rw [h]
    rfl
  · rfl

/-- The selector changes PID_RST on entry to ClosedLoop alone, and only to 1 (R27). -/
theorem selectMode_pidRst (t : Mode) (s : State) :
    (selectMode t s).pidRst = if t = .closedLoop ∧ s.mode ≠ .closedLoop then true else s.pidRst := by
  by_cases h : t = s.mode
  · simp [selectMode, h]
  · cases t <;> simp [selectMode, h, Ne.symm h]

/-- PID writes PIDState, PID_RST and ONTIME alone, and leaves PID_RST at 0 (R173). -/
theorem execPid_frame {s t : State} (h : execPid s = .next t) :
    t = { s with pid := t.pid, pidRst := false, ontime := t.ontime } := by
  unfold execPid at h
  split_ifs at h with hrst
  · obtain ⟨p, q, on, -, -, rfl⟩ := runPidLaw_eq_next.1 h
    rfl
  · cases h
    rfl
  · obtain ⟨p, q, on, -, -, rfl⟩ := runPidLaw_eq_next.1 h
    simp [State.setPid, State.setOntime, hrst]

/-- Settles O47: one case per operation, each by that operation's own frame. -/
theorem onlyTheOwnerWritesARegister : Obligations.OnlyTheOwnerWritesARegister := by
  rintro i s t ⟨hreset, hiter⟩ h
  cases i with
  | reset => exact absurd rfl hreset
  | iter inp => exact absurd rfl hiter
  | sample => cases h; simp [Instr.mnemonic]
  | phase =>
    obtain ⟨-, -, rfl⟩ := execPhase_eq_next.1 h
    simp
  | desired => cases h; simp
  | measured =>
    obtain ⟨-, rfl⟩ := execMeasured_eq_next.1 h
    simp
  | pwm => cases h; simp [Instr.mnemonic]
  | out =>
    cases (execOut_eq s).symm.trans h
    simp [displayed]
  | selNone => cases h; simp
  | selOff =>
    cases h
    simp [selectMode_off, Instr.mnemonic]
  | selRamp =>
    cases h
    simp [selectMode_frame, selectMode_pidRst, Instr.mnemonic]
  | selUnrec w => cases h; simp
  | selClosed =>
    cases h
    simp +contextual [selectMode_frame, selectMode_pidRst, Instr.mnemonic]
  | selOpen =>
    cases h
    simp [selectMode_frame, selectMode_pidRst, Instr.mnemonic]
  | srcOff => cases h; simp [Instr.mnemonic]
  | ramp => cases h; simp [Instr.mnemonic]
  | pid =>
    rw [execPid_frame h]
    simp [Instr.mnemonic]
  | quad b => cases h; simp [Instr.mnemonic]
  | direct b => cases h; simp [Instr.mnemonic]
  | tachSkip => cases h; simp
  | tach g =>
    obtain ⟨-, rfl⟩ := execTach_eq_next.1 h
    simp [tachCall_frame, Instr.mnemonic]

end Sys2Proof.Machine
end

section
/-! The Clock/Phase Generator and the PWM Driver (40_phase_pwm.md): what PHASE answers on a legal and on a degenerate
PWM_FREQ, and what PWM drives. -/

namespace Sys2Proof.Machine

/-- On a degenerate PWM_FREQ the frequency check stops PHASE (R100, R250). -/
theorem execPhase_of_degenerateFreq {s : State} (hw : s.cfg.wf = true)
    (hd : degenerateFreq s.cfg s.latch.pwmFreq = true) :
    execPhase s = .fault (.divideFault s.latch.pwmFreq) := by
  rw [execPhase, withCfg_of_wf hw, checkFreq_eq, if_pos hd, andThen_fault]

/-- Settles O3: the legal clause from the inversion lemma of PHASE and the bound on its value, the degenerate one from
the frequency check. -/
theorem phaseIsScaledCounterRemainder : Obligations.PhaseIsScaledCounterRemainder := by
  intro s hw
  constructor
  · rintro ⟨hpos, hle⟩
    have hnext : exec .phase s = .next _ := execPhase_eq_next.2 ⟨hw, ⟨hpos, hle⟩, rfl⟩
    have hlt := phaseValue_lt hw s.latch.cnt s.latch.pwmFreq
    rw [phaseValue_eq hw] at hnext hlt
    exact ⟨period_pos hpos hle, Nat.div_le_self _ _, _, rfl, Nat.le_of_lt_succ hlt, hnext⟩
  · intro hdeg
    exact execPhase_of_degenerateFreq hw (degenerateFreq_eq_true.2 hdeg)

/-- A bit driven on PWM_PIN is stored whole: the port is one bit wide (R63). -/
theorem writeOut_pwmPin_bitNat (c : Cfg) (o : Out) (b : Bool) :
    writeOut c o .pwmPin (bitNat b) = { o with pwmPin := b } := by
  simp only [writeOut, decide_bitNat]

/-- Settles O5: PWM drives one comparison on the register and on the pin. -/
theorem pwmComparesPhaseWithOntime : Obligations.PwmComparesPhaseWithOntime := by
  intro s
  calc exec .pwm s
      = .next (pwmState s) := execPwm_eq s
    _ = .next ((s.setPwmOut (pwmOn s.wires.phase s.ontime)).setOut
          { s.out with pwmPin := pwmOn s.wires.phase s.ontime }) := by
        rw [pwmState, writeOut_pwmPin_bitNat]

end Sys2Proof.Machine
end

section
/-! The Tachometer (41_tachometer.md): the whole state after a TACH call, and what TACH, TACH_SKIP and MEASURED
answer. -/

namespace Sys2Proof.Machine

/-- The edge predicate as a proposition (R122). -/
theorem tachEdge_eq_true {pin prev prev2 : Bool} :
    tachEdge pin prev prev2 = true ↔ pin = true ∧ prev = true ∧ prev ≠ prev2 := by
  simp [tachEdge, and_assoc]

/-- A TACH call writes RPS and TachometerState alone (R37). -/
theorem tachCall_writes (w : Nat) (pin : Bool) (s : State) :
    tachCall w pin s = (s.setRps (tachCall w pin s).rps).setTach (tachCall w pin s).tach := by
  by_cases h : w = s.tach.win <;> simp [tachCall, h, State.setRps, State.setTach]

/-- Settles O7: a call writes RPS and TachometerState alone, and each of the two is split on the window's change; the
edge is read from the history before it moves. -/
theorem tachCountsFilteredPulses : Obligations.TachCountsFilteredPulses := by
  intro s g hw
  have hcall : exec (.tach g) s = .next (tachCall (windowIndex s.cfg s.latch.cnt) s.latch.tachIn s) :=
    execTach_eq_next.2 ⟨hw, rfl⟩
  rw [hcall, tachCall_writes, tachCall_rps, tachCall_tach, windowIndex_eq hw]
  simp only [State.setRps, State.setTach, tachEdge_eq_true, ne_eq, ite_not]

/-- Settles O8: the operation answers the state it is given. -/
theorem tachSkipChangesNothing : Obligations.TachSkipChangesNothing := by
  intro s
  calc exec .tachSkip s
      = execTachSkip s := rfl
    _ = .next s := rfl

/-- Settles O9: the inversion lemma of MEASURED, with the 50 of R130. -/
theorem measuredIsClampedQuotient : Obligations.MeasuredIsClampedQuotient := by
  intro s hw
  have hnext : exec .measured s = .next _ := execMeasured_eq_next.2 ⟨hw, rfl⟩
  rw [hnext, measuredValue_eq hw, State.setWires]

end Sys2Proof.Machine
end

section
/-! The Duty-Cycle Sources (42_duty_sources.md): the clamped store of DUTY, and the whole state after a QUAD call and
after a RAMP call. -/

namespace Sys2Proof.Machine

/-- `clamp(v, lo, hi)` of R12 as a maximum of a minimum. -/
theorem clampInt_eq_max_min {lo hi : Int} (v : Int) (h : lo ≤ hi) : clampInt v lo hi = max lo (min hi v) := by
  unfold clampInt
  split_ifs <;> omega

/-- The 100 of DUTY_MAX as the integer that the clamp and RAMP's flip compare with. -/
theorem dutyMax_int_eq {c : Cfg} (hc : c.wf = true) : (c.dutyMax : Int) = 100 := by
  obtain ⟨-, -, -, hduty, -⟩ := wf_literals hc
  exact congrArg Nat.cast hduty

/-- The value stored in DUTY, with the 100 of R21. -/
theorem clampedDuty_eq {c : Cfg} (hc : c.wf = true) (d : Int) :
    clampedDuty c d = BitVec.ofNat 7 (max 0 (min 100 d)).toNat := by
  have hnonneg : 0 ≤ max 0 (min 100 d) := le_max_left 0 _
  rw [clampedDuty, dutyMax_int_eq hc, clampInt_eq_max_min d (by decide), ← BitVec.ofInt_natCast,
    Int.toNat_of_nonneg hnonneg]

/-- QUAD's duty cycle before the clamp, its two tests as propositions (R140 to R142). -/
theorem quadDuty_eq (duty step : Nat) (a b prevA : Bool) :
    quadDuty duty step a b prevA =
      if a ≠ prevA then (if a ≠ b then (duty : Int) + step else (duty : Int) - step) else (duty : Int) := by
  simp only [quadDuty, bne_iff_ne]

/-- Settles O13: the state QUAD leaves, with the unclamped sum and the clamped store each in the form of its rule. -/
theorem quadStepsDutyByResp : Obligations.QuadStepsDutyByResp := by
  rintro s b d hw rfl
  have hcall : exec (.quad b) s = .next (quadState s) := execQuad_eq s
  rw [hcall, quadState, quadDuty_eq, clampedDuty_eq hw, State.setQPrevA, State.setDuty]

/-- Whether RAMP applies a unit step, with the threshold of R152. -/
theorem rampSteps_eq_true {c : Cfg} (hc : c.wf = true) {elapsed mult : Nat} :
    rampSteps c elapsed mult = true ↔ 1000 * mult ≤ elapsed + 1 := by
  rw [rampSteps, decide_eq_true_iff, rampThreshold_eq hc]

/-- RAMP's duty cycle before the clamp: up while rising, down while falling, and only on a step (R150, R152). -/
theorem rampDuty_eq {c : Cfg} (hc : c.wf = true) (duty elapsed mult : Nat) (dir : Bool) :
    rampDuty c duty elapsed mult dir =
      if 1000 * mult ≤ elapsed + 1 then (if dir = false then (duty : Int) + 1 else (duty : Int) - 1)
      else (duty : Int) := by
  cases dir <;> simp [rampDuty, rampSteps_eq_true hc]

/-- RAMP's call counter as stored: a step clears it, and the count is kept modulo its width (R11, R151, R152). -/
theorem rampElapsed_mod {c : Cfg} (hc : c.wf = true) (elapsed mult n : Nat) :
    rampElapsed c elapsed mult % n = if 1000 * mult ≤ elapsed + 1 then 0 else (elapsed + 1) % n := by
  simp only [rampElapsed, rampSteps_eq_true hc]
  split
  · exact Nat.zero_mod n
  · rfl

/-- RAMP.DIR after a call, with the 100 of R153. -/
theorem rampDir_eq {c : Cfg} (hc : c.wf = true) (d : Int) (dir : Bool) :
    rampDir c d dir = if 100 ≤ d then true else if d ≤ 0 then false else dir := by
  rw [rampDir, dutyMax_int_eq hc]

/-- Settles O15: the state RAMP leaves, with count, step, flip and clamp each in the form of its rule. The flip and the
clamp read the same unclamped value. -/
theorem rampCountsStepsFlipsClamps : Obligations.RampCountsStepsFlipsClamps := by
  rintro s d hw rfl
  have hcall : exec .ramp s = .next (rampState s) := execRamp_eq s
  rw [hcall, rampState, rampDuty_eq hw, rampElapsed_mod hw, rampDir_eq hw, clampedDuty_eq hw, State.setRamp,
    State.setDuty]

end Sys2Proof.Machine
end

section
/-! The PID Controller (43_pid.md): the result of the control law from its intermediate values, and what DESIRED and
PID answer with and without a pending reset. -/

namespace Sys2Proof.Machine

/-- Settles O19: DESIRED writes its own wire, and the value on it is DUTY div 2. -/
theorem desiredIsHalfOfDuty : Obligations.DesiredIsHalfOfDuty := by
  intro s
  calc exec .desired s
      = .next (s.setWires { s.wires with desired := desiredValue s.duty }) := rfl
    _ = .next { s with wires := { s.wires with desired := s.duty.toNat / 2 } } := by
        rw [desiredValue, State.setWires]

/-- The control law from its intermediate values, each given by the rule that computes it (R174, R175): where the
clamped on-time has a floor, the law answers it with the new PIDState (R176, R177). -/
theorem pidLaw_eq_some_of_floor {α : Type} {N : Num α} {p : PidRegs α} {desired measured : Nat} {e i dv y : α}
    {on : Int} (he : e = pidError N desired measured) (hi : i = N.add p.integral e) (hdv : dv = N.sub e p.prevErr)
    (hy : y = pidClamp N (N.add p.internal (pidIncrement N e i dv))) (hfloor : N.floor y = some on) :
    pidLaw N p desired measured = some ({ integral := i, prevErr := e, internal := y }, on) := by
  subst he hi hdv hy
  simp only [pidLaw, hfloor]

/-- Without a pending reset PID runs the law (R173). -/
theorem execPid_of_noReset {s : State} (h : s.pidRst = false) : execPid s = runPidLaw s :=
  if_neg (ne_true_of_eq_false h)

/-- A pending reset that does not compute ends the call with ONTIME 0 (R173). -/
theorem execPid_of_resetOnly {s : State} (h : s.pidRst = true) (hc : s.cfg.pidResetComputes = false) :
    execPid s = .next ((consumePidReset s).setOntime 0#7) := by
  rw [execPid, if_pos h, if_neg (ne_true_of_eq_false hc)]

/-- A pending reset that computes runs the law from the zeroed PIDState (R173). -/
theorem execPid_of_resetComputes {s : State} (h : s.pidRst = true) (hc : s.cfg.pidResetComputes = true) :
    execPid s = runPidLaw (consumePidReset s) := by
  rw [execPid, if_pos h, if_pos hc]

/-- Consuming the reset leaves none pending. -/
@[simp] theorem consumePidReset_pidRst (s : State) : (consumePidReset s).pidRst = false := rfl

/-- Settles O20: the values of the statement are the intermediate values of the law, so its result is known, and the
law's result is what PID stores. -/
theorem pidRunsTheControlLaw : Obligations.PidRunsTheControlLaw := by
  intro s k p e i dv u y yc on hrst hk hp he hi hdv hu hy hyc hfloor
  subst hk hu hy
  have hlaw : pidLaw s.cfg.num.num p s.wires.desired s.wires.measured =
      some ({ integral := i, prevErr := e, internal := yc }, on) :=
    pidLaw_eq_some_of_floor he hi hdv hyc hfloor
  calc exec .pid s
      = runPidLaw s := execPid_of_noReset hrst
    _ = .next ((s.setPid (.ofRegs s.cfg.num { integral := i, prevErr := e, internal := yc })).setOntime
          (BitVec.ofInt 7 on)) := runPidLaw_eq_next.2 ⟨p, _, on, hp, hlaw, rfl⟩

/-- Settles O21: one clause per reading of PID_RESET_COMPUTES; under the one that computes, the call from the zeroed
state has no reset pending and runs the law as well. -/
theorem pidResetIsSingleShot : Obligations.PidResetIsSingleShot := by
  intro s hrst
  constructor
  · intro hc
    exact execPid_of_resetOnly hrst hc
  · intro hc
    calc exec .pid s
        = runPidLaw (consumePidReset s) := execPid_of_resetComputes hrst hc
      _ = execPid (consumePidReset s) := (execPid_of_noReset (consumePidReset_pidRst s)).symm

end Sys2Proof.Machine
end

section
/-! The Mode State Machine (44_mode_select.md): the entry rule for a target mode other than Off, and what the six
selector operations answer. -/

namespace Sys2Proof.Machine

/-- The entry rule for a target other than Off: re-selecting the mode in force changes nothing, entry from another mode
zeroes DUTY and RPS, and entry to ClosedLoop raises PID_RST as well (R205). -/
theorem selectMode_of_ne_off {t : Mode} (ht : t ≠ .off) (s : State) :
    selectMode t s =
      if s.mode = t then s
      else { s with mode := t, duty := 0#7, rps := 0, pidRst := if t = .closedLoop then true else s.pidRst } := by
  unfold selectMode
  by_cases h : t = s.mode
  · rw [if_pos h, if_pos h.symm]
  · rw [if_neg h, if_neg (Ne.symm h)]
    cases t with
    | off => exact absurd rfl ht
    | ramp => rfl
    | closedLoop => rfl
    | openLoop => rfl

/-- Entry to a mode other than Off and ClosedLoop leaves PID_RST as it is (R205). -/
theorem selectMode_of_ne_off_of_ne_closedLoop {t : Mode} (ht : t ≠ .off) (hc : t ≠ .closedLoop) (s : State) :
    selectMode t s = if s.mode = t then s else { s with mode := t, duty := 0#7, rps := 0 } := by
  rw [selectMode_of_ne_off ht, if_neg hc]

/-- Settles O29: both operations answer the state they are given. -/
theorem noEventAndUnrecognisedWordsChangeNothing : Obligations.NoEventAndUnrecognisedWordsChangeNothing := by
  intro s w
  constructor
  · calc exec .selNone s
        = execSelNone s := rfl
      _ = .next s := rfl
  · calc exec (.selUnrec w) s
        = execSelUnrec s := rfl
      _ = .next s := rfl

/-- Settles O30: entry to Off writes MODE alone, and from Off that write changes nothing. -/
theorem selOffWritesModeAlone : Obligations.SelOffWritesModeAlone := by
  intro s
  calc exec .selOff s
      = .next (selectMode .off s) := rfl
    _ = .next { s with mode := .off } := by rw [selectMode_off, State.setMode]

/-- Settles O31: the entry rule at the two targets whose entry leaves PID_RST alone. -/
theorem selRampAndSelOpenZeroDutyAndRps : Obligations.SelRampAndSelOpenZeroDutyAndRps := by
  intro s
  constructor
  · calc exec .selRamp s
        = .next (selectMode .ramp s) := rfl
      _ = .next (if s.mode = .ramp then s else { s with mode := .ramp, duty := 0#7, rps := 0 }) := by
          rw [selectMode_of_ne_off_of_ne_closedLoop (by decide) (by decide)]
  · calc exec .selOpen s
        = .next (selectMode .openLoop s) := rfl
      _ = .next (if s.mode = .openLoop then s else { s with mode := .openLoop, duty := 0#7, rps := 0 }) := by
          rw [selectMode_of_ne_off_of_ne_closedLoop (by decide) (by decide)]

/-- Settles O32: the entry rule at ClosedLoop, where it raises PID_RST. -/
theorem selClosedRaisesPidReset : Obligations.SelClosedRaisesPidReset := by
  intro s
  calc exec .selClosed s
      = .next (selectMode .closedLoop s) := rfl
    _ = .next (if s.mode = .closedLoop then s
          else { s with mode := .closedLoop, duty := 0#7, rps := 0, pidRst := true }) := by
        rw [selectMode_of_ne_off (by decide), if_pos rfl]

end Sys2Proof.Machine
end

section
/-! The iteration and its sequencing (45_iteration.md): ITER as the sequence of its ten steps, the tachometer gate after
PWM, and the operations that are the sequencer's own, SAMPLE, SRC_OFF, DIRECT and OUT. -/

namespace Sys2Proof.Machine

open Sys2Proof.Certificates

/-! ### The sequence -/

/-- What follows the frequency check runs on the state the check was given, unless PWM_FREQ is degenerate (R250). -/
theorem andThen_checkFreq (s : State) (k : State → Result) :
    andThen (checkFreq s) k =
      if s.latch.pwmFreq = 0 ∨ s.cfg.clockFreq < s.latch.pwmFreq then .fault (.divideFault s.latch.pwmFreq)
      else k s := by
  simp only [checkFreq_eq, degenerateFreq_eq_true]
  split_ifs
  · exact andThen_fault _ k
  · exact andThen_next s k

/-- On a legal configuration and a run that is not faulted ITER is SAMPLE of what is presented, the frequency check and
the pipeline (R220). -/
theorem execIter_of_not_faulted {s : State} (hw : s.cfg.wf = true) (hn : s.faulted = false) (i : In) :
    execIter i s = andThen (execSample (s.setPorts i)) fun s => andThen (checkFreq s) runPipeline := by
  rw [execIter, withCfg_of_wf hw, if_neg (Bool.eq_false_iff.1 hn)]

/-- Settles O40: ITER unfolds to its ten steps, and the selector, the two sources and the gate run what the decoder
reads from their words. -/
theorem iterIsTheSequenceOfItsOperations : Obligations.IterIsTheSequenceOfItsOperations := by
  intro s i hw hn
  have hseq := execIter_of_not_faulted hw hn i
  simp only [andThen_checkFreq, runPipeline, runSelector_eq_exec, runDutySource_eq_exec, runOnTimeSource_eq_exec,
    runGate_eq_exec] at hseq
  exact hseq

/-! ### The tachometer gate -/

/-- The GATE word is 11 exactly when the output is on and ONTIME is 0 (R81, R228). -/
theorem gateWord_eq_three (s : State) : gateWord s = 0b11#2 ↔ s.pwmOut = true ∧ s.ontime = 0#7 := by
  unfold gateWord
  cases s.pwmOut <;> by_cases h : s.ontime = 0#7 <;> simp [h]

/-- The GATE word selects TACH when the output is on or ONTIME is 0, and TACH_SKIP otherwise (R228). -/
theorem decodeGate_gateWord (s : State) :
    decodeGate (gateWord s) = if s.pwmOut = true ∨ s.ontime = 0#7 then .tach (gateWord s) else .tachSkip := by
  have hopen : gateWord s = 0b00#2 ↔ ¬(s.pwmOut = true ∨ s.ontime = 0#7) := by
    rw [gateWord_eq_zero, not_or, Bool.not_eq_true]
  simp only [decodeGate, hopen, ite_not]

theorem pwmOn_eq_true {phase : Nat} {ontime : Percent} : pwmOn phase ontime = true ↔ phase < ontime.toNat :=
  decide_eq_true_iff

theorem pwmOn_eq_false {phase : Nat} {ontime : Percent} : pwmOn phase ontime = false ↔ ontime.toNat ≤ phase := by
  rw [pwmOn, decide_eq_false_iff_not, Nat.not_lt]

/-- Settles O46: the decoder's answer holds of every state; the word is never 11 because the strict comparison of PWM
fails against an ONTIME of 0. -/
theorem gateOpensWhenDrivenOrIdle : Obligations.GateOpensWhenDrivenOrIdle := by
  intro s t h
  have hout : t.pwmOut = pwmOn s.wires.phase s.ontime := by cases h; rfl
  have hontime : t.ontime = s.ontime := by cases h; rfl
  refine ⟨decodeGate_gateWord t, ?_, ?_⟩
  · intro hthree
    obtain ⟨hon, hzero⟩ := (gateWord_eq_three t).1 hthree
    rw [hout, pwmOn_eq_true, ← hontime, hzero] at hon
    exact Nat.not_lt_zero _ hon
  · rw [gateWord_eq_zero, hout, hontime, pwmOn_eq_false, and_comm]

/-! ### SAMPLE, SRC_OFF, DIRECT and OUT -/

/-- No operation of an iteration but SAMPLE writes the latched inputs (R62). -/
theorem exec_latch {i : Instr} {s t : State} (hop : elementaryOp i) (hi : i.mnemonic ≠ .SAMPLE)
    (h : exec i s = .next t) : t.latch = s.latch := by
  obtain ⟨hreset, hiter⟩ := hop
  cases i with
  | reset => exact absurd rfl hreset
  | iter inp => exact absurd rfl hiter
  | sample => exact absurd rfl hi
  | phase =>
    obtain ⟨-, -, rfl⟩ := execPhase_eq_next.1 h
    rfl
  | measured =>
    obtain ⟨-, rfl⟩ := execMeasured_eq_next.1 h
    rfl
  | pid => rw [execPid_frame h]
  | tach g =>
    obtain ⟨-, rfl⟩ := execTach_eq_next.1 h
    simp only [tachCall_frame]
  | selOff | selRamp | selClosed | selOpen =>
    cases h
    simp only [selectMode_frame]
  | out =>
    cases (execOut_eq s).symm.trans h
    rfl
  | desired | pwm | selNone | selUnrec w | srcOff | ramp | quad b | direct b | tachSkip =>
    cases h
    rfl

/-- Settles O36: SAMPLE latches the ports at their widths, and what is latched stays. -/
theorem sampleLatchesEveryPort : Obligations.SampleLatchesEveryPort := by
  constructor
  · intro s
    refine ⟨rfl, fun t p h => ?_⟩
    have hlatch : t.latch = sampleIn s.cfg s.ports := by cases h; rfl
    rw [memRead_eq, hlatch, readIn_sampleIn]
  · intro i s t p hop hi h
    rw [memRead_eq, memRead_eq, exec_latch hop hi h]

/-- Settles O37: each operation is one write of ONTIME. -/
theorem srcOffAndDirectWriteOntime : Obligations.SrcOffAndDirectWriteOntime := by
  intro s b
  constructor
  · calc exec .srcOff s
        = .next (s.setOntime 0#7) := rfl
      _ = .next { s with ontime := 0#7 } := by rw [State.setOntime]
  · calc exec (.direct b) s
        = .next (s.setOntime s.duty) := rfl
      _ = .next { s with ontime := s.duty } := by rw [State.setOntime]

/-- Settles O38: the seven port writes leave the display ports of `displayed`. -/
theorem outDrivesTheSevenDisplayPorts : Obligations.OutDrivesTheSevenDisplayPorts := by
  intro s
  calc exec .out s
      = .next (s.setOut (displayed s)) := execOut_eq s
    _ = _ := by
      rw [displayed, desiredValue, State.setOut]
      cases s.mode <;> rfl

end Sys2Proof.Machine
end

section
/-! Exceptions (60_exceptions.md): when ITER raises DivideFault, the state a run rests in after a fault, and that a
faulted run keeps its mark until RESET. -/

namespace Sys2Proof.Machine

open Sys2Proof.Certificates

/-! ### When ITER raises DivideFault -/

/-- The sampled inputs break ENV-FREQ exactly when PWM_FREQ is degenerate (R250, R262). -/
theorem not_envFreq_iff {c : Cfg} {i : In} : ¬EnvFreq c i ↔ i.pwmFreq = 0 ∨ c.clockFreq < i.pwmFreq := by
  rw [EnvFreq, not_and_or, Nat.not_le, Nat.not_le, Nat.lt_one_iff]

/-- The control law faults only where the value to be floored is not a number (R181). -/
theorem runPidLaw_eq_fault {s : State} {f : Fault} (h : runPidLaw s = .fault f) : f = .pidNotANumber := by
  unfold runPidLaw at h
  split at h
  · cases h
  · split at h
    · cases h
    · exact (Host.Outcome.fault.inj h).symm

/-- PID faults only in the control law: consuming a pending reset answers next (R173). -/
theorem execPid_eq_fault {s : State} {f : Fault} (h : execPid s = .fault f) : f = .pidNotANumber := by
  unfold execPid at h
  split_ifs at h
  · exact runPidLaw_eq_fault h
  · exact runPidLaw_eq_fault h

/-- Of the on-time sources PID alone can fault, so DivideFault is none of their outcomes. -/
theorem runOnTimeSource_eq_fault {s : State} {f : Fault} (h : runOnTimeSource (modeWord s) s = .fault f) :
    f = .pidNotANumber := by
  rw [runOnTimeSource_eq] at h
  split at h
  · cases h
  · cases h
  · exact execPid_eq_fault h
  · cases h

/-- On a legal PWM_FREQ ITER never raises DivideFault: behind the frequency check the on-time source alone can fault. -/
theorem iter_ne_divideFault {s : State} {i : In} (hw : s.cfg.wf = true) (hn : s.faulted = false)
    (hf : EnvFreq s.cfg (sampleIn s.cfg i)) (f : Nat) : exec (.iter i) s ≠ .fault (.divideFault f) := by
  intro h
  rw [iter_eq hw hn hf] at h
  rcases andThen_eq_fault.1 h with hsource | ⟨u, -, hback⟩
  · cases runOnTimeSource_eq_fault hsource
  · cases hback

/-- Settles O50: a degenerate PWM_FREQ makes ITER raise DivideFault with it, a legal one excludes that fault. -/
theorem divideFaultExactlyOnDegenerateFreq : Obligations.DivideFaultExactlyOnDegenerateFreq := by
  intro s i f hw hn
  refine ⟨⟨fun h => ?_, ?_⟩, rfl⟩
  · have hf : ¬EnvFreq s.cfg (sampleIn s.cfg i) := fun hf => iter_ne_divideFault hw hn hf f h
    cases (iter_degenerate hw hn hf).symm.trans h
    exact ⟨rfl, not_envFreq_iff.1 hf⟩
  · rintro ⟨rfl, hdeg⟩
    exact iter_degenerate hw hn (not_envFreq_iff.2 hdeg)

/-! ### The state a run rests in -/

/-- What the platform presents is the instruction of the next step, and taking it leaves the state it was put before. -/
theorem fetch_withPlatform (s : State) (rst : Bool) (i : In) :
    fetch (withPlatform s rst i) = (.ok (if rst then .reset else .iter i), s) := rfl

/-- On a legal configuration a step with RST = 0 is one iteration over the presented inputs (R254). -/
theorem step_withPlatform_iter {s : State} (hw : s.cfg.wf = true) (i : In) :
    step (withPlatform s false i) = exec (.iter i) s := by
  have hw' : (withPlatform s false i).cfg.wf = true := hw
  rw [step, withCfg_of_wf hw', fetch_withPlatform]
  rfl

/-- After a fault the run rests in the fetched state, marked (R255). -/
theorem restAfter_of_fault {s : State} {f : Fault} (h : step s = .fault f) :
    restAfter s = markFaulted (fetch s).2 := by
  simp only [restAfter, h]

/-- Settles O51: the step is the iteration, which faults before it writes, and the run rests where it began, marked. -/
theorem faultingIterationWritesNothing : Obligations.FaultingIterationWritesNothing := by
  intro s i hw hn hdeg
  have hstep : step (withPlatform s false i) = .fault (.divideFault (sampleIn s.cfg i).pwmFreq) :=
    (step_withPlatform_iter hw i).trans (iter_degenerate hw hn (not_envFreq_iff.2 hdeg))
  refine ⟨hstep, ?_⟩
  rw [restAfter_of_fault hstep, fetch_withPlatform, markFaulted, State.setFaulted]

/-! ### Leaving a faulted run -/

/-- An iteration of a faulted run is the named stop (R255, assumption 4). -/
theorem iter_of_faulted {s : State} (hw : s.cfg.wf = true) (hf : s.faulted = true) (i : In) :
    exec (.iter i) s = .fault .runFaulted := by
  change execIter i s = _
  rw [execIter, withCfg_of_wf hw, if_pos hf]

/-- Every operation but RESET keeps the mark of a faulted run; ITER does so by never answering next on one (R256). -/
theorem exec_keeps_faulted {op : Instr} (hop : op ≠ .reset) : Keeps (fun s => s.faulted = true) (exec op) := by
  intro s t hf h
  cases op with
  | reset => exact absurd rfl hop
  | iter i =>
    obtain ⟨-, hn, -⟩ := iter_eq_next.1 h
    rw [hf] at hn
    cases hn
  | phase =>
    obtain ⟨-, -, rfl⟩ := execPhase_eq_next.1 h
    exact hf
  | measured =>
    obtain ⟨-, rfl⟩ := execMeasured_eq_next.1 h
    exact hf
  | pid =>
    rw [execPid_frame h]
    exact hf
  | tach g =>
    obtain ⟨-, rfl⟩ := execTach_eq_next.1 h
    simpa only [tachCall_frame] using hf
  | selOff | selRamp | selClosed | selOpen =>
    cases h
    simpa only [selectMode_frame] using hf
  | out =>
    cases (execOut_eq s).symm.trans h
    exact hf
  | sample | desired | pwm | selNone | selUnrec w | srcOff | ramp | quad b | direct b | tachSkip =>
    cases h
    exact hf

/-- Settles O52: the named stop of ITER, the state RESET answers, and the mark that every other operation keeps. -/
theorem onlyResetLeavesAFaultedRun : Obligations.OnlyResetLeavesAFaultedRun := by
  intro s i hw hf
  refine ⟨iter_of_faulted hw hf i, rfl, fun op t h ht => ?_⟩
  by_contra hop
  exact Bool.eq_false_iff.1 ht (exec_keeps_faulted hop s t hf h)

end Sys2Proof.Machine
end

section
/-! RESET (70_reset_and_hazards.md section 1): what it leaves in PIDState and on the output ports, and its priority over
what the platform presents. -/

namespace Sys2Proof.Machine

open Sys2Proof.Certificates

/-! ### What RESET leaves -/

/-- RESET answers a next state from every state (R280). -/
theorem exec_reset (s : State) : exec .reset s = .next (resetState s) := rfl

/-- The +0 of binary32 is the pattern 0x00000000 (R281). -/
theorem zeroPid_binary32 :
    zeroPid binary32 = { integral := 0x00000000#32, prevErr := 0x00000000#32, internal := 0x00000000#32 } := rfl

/-- In a binary32 run RESET leaves PIDState all 0x00000000 (R281). -/
theorem resetState_pid_binary32 {s : State} (hnum : s.cfg.num = .binary32) :
    (resetState s).pid =
      .binary32 { integral := 0x00000000#32, prevErr := 0x00000000#32, internal := 0x00000000#32 } := by
  rw [resetState_pid, hnum, ← zeroPid_binary32]
  rfl

/-- Every output port reads 0 after RESET (R282). -/
theorem readOut_zeroOut (p : OutPort) : readOut zeroOut p = 0 := by
  cases p <;> rfl

/-- Settles O1: the next state is `resetState`, whose constant fields are those of `State.reset`; PIDState and the
reading of an output port have a lemma each. -/
theorem resetZeroesEveryRegister : Obligations.ResetZeroesEveryRegister := by
  intro s
  exact ⟨resetState s, exec_reset s, rfl, rfl, rfl, rfl, rfl, rfl, resetState_pid s, resetState_pid_binary32,
    rfl, rfl, rfl, rfl, rfl, rfl, rfl, readOut_zeroOut, rfl, resetState_ports s, resetState_cfg s⟩

/-! ### Priority of RST -/

/-- On a legal configuration a step with RST = 1 is RESET, whatever inputs are presented (R254). -/
theorem step_withPlatform_reset {s : State} (hw : s.cfg.wf = true) (i : In) :
    step (withPlatform s true i) = .next (resetState s) := by
  have hw' : (withPlatform s true i).cfg.wf = true := hw
  rw [step, withCfg_of_wf hw', fetch_withPlatform]
  exact exec_reset s

/-- A second RESET changes nothing: what the first took from the state it kept (R280, R283). -/
theorem resetState_resetState (s : State) : resetState (resetState s) = resetState s := rfl

/-- Settles O2: RESET keeps the configuration, so the step that follows it is a RESET too, and that one changes
nothing. -/
theorem resetHasPriority : Obligations.ResetHasPriority := by
  intro s i i' hw
  have hagain : step (withPlatform (resetState s) true i') = .next (resetState s) := by
    have hw' : (resetState s).cfg.wf = true := by rwa [resetState_cfg]
    rw [step_withPlatform_reset hw', resetState_resetState]
  exact ⟨resetState s, step_withPlatform_reset hw i, exec_reset s, step_withPlatform_reset hw i', hagain, rfl⟩

end Sys2Proof.Machine
end

section
/-! The invariant (10_state.md R38, 43_pid.md R181, 00_scope.md R11): one rule per write of the state, then what every
operation keeps, and with it the iteration, the step and the state after reset. -/

namespace Sys2Proof.Machine

open Sys2Proof.Certificates

/-! ### One rule per write

A write outside the fields the invariant bounds keeps it; a write of a bounded field keeps it when the new value is
inside the bound. -/

section Writes

variable {s : State}

theorem Inv.setMode (h : Inv s) (v : Mode) : Inv (s.setMode v) := { h with fits := { h.fits with } }

theorem Inv.setPidRst (h : Inv s) (v : Bool) : Inv (s.setPidRst v) := { h with fits := { h.fits with } }

theorem Inv.setPwmOut (h : Inv s) (v : Bool) : Inv (s.setPwmOut v) := { h with fits := { h.fits with } }

theorem Inv.setQPrevA (h : Inv s) (v : Bool) : Inv (s.setQPrevA v) := { h with fits := { h.fits with } }

theorem Inv.setOut (h : Inv s) (v : Out) : Inv (s.setOut v) := { h with fits := { h.fits with } }

theorem Inv.setPorts (h : Inv s) (v : In) : Inv (s.setPorts v) := { h with fits := { h.fits with } }

theorem Inv.setLatch (h : Inv s) (v : In) : Inv (s.setLatch v) := { h with fits := { h.fits with } }

theorem Inv.setFeed (h : Inv s) (v : List Stimulus) : Inv (s.setFeed v) := { h with fits := { h.fits with } }

theorem Inv.setDraws (h : Inv s) (v : Nat) : Inv (s.setDraws v) := { h with fits := { h.fits with } }

theorem Inv.setDuty (h : Inv s) {v : Percent} (hv : v.toNat ≤ 100) : Inv (s.setDuty v) :=
  { h with fits := { h.fits with }, duty := hv }

theorem Inv.setOntime (h : Inv s) {v : Percent} (hv : v.toNat ≤ 100) : Inv (s.setOntime v) :=
  { h with fits := { h.fits with }, ontime := hv }

theorem Inv.setRps (h : Inv s) {v : Nat} (hv : v < 2 ^ s.cfg.accW) : Inv (s.setRps v) :=
  { h with fits := { h.fits with rps := hv } }

theorem Inv.setTach (h : Inv s) {v : TachRegs} (hwin : v.win < 2 ^ s.cfg.winW) (hacc : v.acc < 2 ^ s.cfg.accW) :
    Inv (s.setTach v) :=
  { h with fits := { h.fits with win := hwin, acc := hacc } }

theorem Inv.setRamp (h : Inv s) {v : RampRegs} (hv : v.elapsed < 2 ^ s.cfg.elapsedW) : Inv (s.setRamp v) :=
  { h with fits := { h.fits with elapsed := hv } }

theorem Inv.setWires (h : Inv s) {v : Wires} (hphase : v.phase < 100) (hdesired : v.desired ≤ 50)
    (hmeasured : v.measured ≤ 50) : Inv (s.setWires v) :=
  { h with fits := { h.fits with }, phase := hphase, desired := hdesired, measured := hmeasured }

theorem Inv.setPid (h : Inv s) {q : PidRegs Binary32} (hq : PidInv q) : Inv (s.setPid (.binary32 q)) :=
  { h with fits := { h.fits with }, pid := ⟨q, rfl, hq⟩ }

end Writes

/-! ### What the operations keep -/

/-- RESET leaves every bounded register at 0 and the wires as they were. -/
theorem Inv.resetState {s : State} (h : Inv s) : Inv (resetState s) where
  cfg := h.cfg
  num := h.num
  fits := ⟨Nat.two_pow_pos _, Nat.two_pow_pos _, Nat.two_pow_pos _, Nat.two_pow_pos _⟩
  duty := Nat.zero_le _
  ontime := Nat.zero_le _
  phase := h.phase
  desired := h.desired
  measured := h.measured
  pid := ⟨zeroPid binary32, by rw [resetState_pid, h.num]; rfl, zeroPid_inv⟩

/-- The entry rule zeroes DUTY and RPS or leaves them alone (R205). -/
theorem Inv.selectMode {s : State} (h : Inv s) (t : Mode) : Inv (selectMode t s) := by
  have hzero : ∀ m, Inv (((s.setMode m).setDuty 0#7).setRps 0) := fun m =>
    ((h.setMode m).setDuty (Nat.zero_le _)).setRps (Nat.two_pow_pos _)
  unfold Machine.selectMode
  split_ifs
  · exact h
  · cases t with
    | off => exact h.setMode .off
    | ramp => exact hzero .ramp
    | closedLoop => exact (hzero .closedLoop).setPidRst true
    | openLoop => exact hzero .openLoop

theorem Inv.selected {s : State} (h : Inv s) (w : BitVec 4) : Inv (selected w s) := by
  rcases selected_cases w s with ⟨-, heq⟩ | ⟨t, -, heq⟩ <;> rw [heq]
  · exact h
  · exact h.selectMode t

theorem Inv.quadState {s : State} (h : Inv s) : Inv (quadState s) :=
  (h.setQPrevA _).setDuty (clampedDuty_le h.cfg _)

theorem Inv.rampState {s : State} (h : Inv s) : Inv (rampState s) :=
  (h.setRamp (Nat.mod_lt _ (Nat.two_pow_pos _))).setDuty (clampedDuty_le h.cfg _)

theorem Inv.sourced {s : State} (h : Inv s) : Inv (sourced s) := by
  unfold Machine.sourced
  cases s.mode with
  | off => exact h
  | ramp => exact h.rampState
  | closedLoop => exact h.quadState
  | openLoop => exact h.quadState

/-- Every part of the front is a write inside its bound. -/
theorem Inv.front {s : State} (h : Inv s) : Inv (front s) := by
  have hsourced : Inv (Machine.sourced (Machine.selected s.latch.sel s)) := (h.selected _).sourced
  rw [front_eq]
  exact hsourced.setWires (phaseValue_lt h.cfg _ _) (desiredValue_le hsourced.duty) (measuredValue_le h.cfg _)

/-- A TACH call stores each of its registers at the register's width (R11, R128). -/
theorem Inv.tachCall {s : State} (h : Inv s) (w : Nat) (pin : Bool) : Inv (tachCall w pin s) := by
  have hmod : ∀ n, n % 2 ^ s.cfg.accW < 2 ^ s.cfg.accW := fun n => Nat.mod_lt n (Nat.two_pow_pos _)
  have hwin : w % 2 ^ s.cfg.winW < 2 ^ s.cfg.winW := Nat.mod_lt w (Nat.two_pow_pos _)
  rw [tachCall_writes, tachCall_rps, tachCall_tach]
  refine (h.setRps ?_).setTach hwin ?_
  · split
    · exact h.fits.rps
    · exact hmod _
  · change (if _ then if _ then _ else _ else 0) < _
    split_ifs
    · exact hmod _
    · exact h.fits.acc
    · exact Nat.two_pow_pos _

/-- The control law runs from PIDState inside its bounds on speeds in 0..50, and stays inside the invariant (R181). -/
theorem Inv.runPidLaw {s : State} (h : Inv s) : ∃ t, runPidLaw s = .next t ∧ Inv t := by
  obtain ⟨p, hp, hpinv⟩ := h.pid
  obtain ⟨q, on, hlaw, hqinv, hlo, hhi⟩ := pidLaw_of_inv hpinv h.desired h.measured
  have hon : (BitVec.ofInt 7 on).toNat ≤ 100 := by
    rw [BitVec.toNat_ofInt]
    omega
  refine ⟨(s.setPid (.binary32 q)).setOntime (BitVec.ofInt 7 on), ?_, (h.setPid hqinv).setOntime hon⟩
  rw [runPidLaw_of_num h.num hp]
  simp only [NumKind.num, hlaw]
  rfl

theorem Inv.consumePidReset {s : State} (h : Inv s) : Inv (consumePidReset s) := by
  rw [consumePidReset_of_num h.num]
  exact (h.setPid zeroPid_inv).setPidRst false

/-- Inside the invariant PID completes, under either reading of the pending reset (R173). -/
theorem Inv.execPid {s : State} (h : Inv s) : ∃ t, execPid s = .next t ∧ Inv t := by
  cases hrst : s.pidRst with
  | false =>
    rw [execPid_of_noReset hrst]
    exact h.runPidLaw
  | true =>
    cases hc : s.cfg.pidResetComputes with
    | false => exact ⟨_, execPid_of_resetOnly hrst hc, h.consumePidReset.setOntime (Nat.zero_le _)⟩
    | true =>
      rw [execPid_of_resetComputes hrst hc]
      exact h.consumePidReset.runPidLaw

/-- Settles O23: the invariant after the call holds the bounds of the statement. -/
theorem pidRunsInsideTheInvariant : Obligations.PidRunsInsideTheInvariant := by
  intro s h
  obtain ⟨t, ht, hinv⟩ := h.execPid
  obtain ⟨q, hq, hqinv⟩ := hinv.pid
  exact ⟨t, q, ht, hinv.ontime, hq, hqinv⟩

/-- Every operation of an iteration keeps the invariant. -/
theorem exec_elementary_keeps_inv {op : Instr} (hop : elementary op = true) : Keeps Inv (exec op) := by
  intro s t hs h
  cases op with
  | reset | iter i => cases hop
  | sample =>
    cases h
    exact hs.setLatch _
  | phase =>
    obtain ⟨hw, -, rfl⟩ := execPhase_eq_next.1 h
    exact hs.setWires (phaseValue_lt hw _ _) hs.desired hs.measured
  | desired =>
    cases h
    exact hs.setWires hs.phase (desiredValue_le hs.duty) hs.measured
  | measured =>
    obtain ⟨hw, rfl⟩ := execMeasured_eq_next.1 h
    exact hs.setWires hs.phase hs.desired (measuredValue_le hw _)
  | pwm =>
    cases (execPwm_eq s).symm.trans h
    exact (hs.setPwmOut _).setOut _
  | out =>
    cases (execOut_eq s).symm.trans h
    exact hs.setOut _
  | selOff | selRamp | selClosed | selOpen =>
    cases h
    exact hs.selectMode _
  | srcOff =>
    cases h
    exact hs.setOntime (Nat.zero_le _)
  | ramp =>
    cases (execRamp_eq s).symm.trans h
    exact hs.rampState
  | pid =>
    obtain ⟨u, hu, hinv⟩ := hs.execPid
    cases hu.symm.trans h
    exact hinv
  | quad b =>
    cases (execQuad_eq s).symm.trans h
    exact hs.quadState
  | direct b =>
    cases h
    exact hs.setOntime hs.duty
  | tach g =>
    obtain ⟨-, rfl⟩ := execTach_eq_next.1 h
    exact hs.tachCall _ _
  | selNone | selUnrec w | tachSkip =>
    cases h
    exact hs

/-- Every operation keeps the invariant. -/
theorem exec_keeps_inv (op : Instr) : Keeps Inv (exec op) := by
  cases op with
  | reset =>
    intro s t hs h
    cases (exec_reset s).symm.trans h
    exact hs.resetState
  | iter i => exact keeps_iter (fun _ _ hs => hs.setPorts _) (fun _ => exec_elementary_keeps_inv) i
  | _ => exact exec_elementary_keeps_inv rfl

/-- Settles O60: fetching looks at no bounded field, and every operation keeps the invariant. -/
theorem stepKeepsTheInvariant : Obligations.StepKeepsTheInvariant :=
  keeps_step (fun _ _ hs => hs.setFeed _) (fun _ _ hs => hs.setDraws _) exec_keeps_inv

/-- Settles O59: every bounded register is 0 at reset, so are the wires, and no pulse is counted. -/
theorem resetIsInsideTheInvariant : Obligations.ResetIsInsideTheInvariant := by
  refine ⟨{
    cfg := hardware_wf
    num := rfl
    fits := ⟨Nat.two_pow_pos _, Nat.two_pow_pos _, Nat.two_pow_pos _, Nat.two_pow_pos _⟩
    duty := Nat.zero_le _
    ontime := Nat.zero_le _
    phase := by decide
    desired := Nat.zero_le _
    measured := Nat.zero_le _
    pid := ⟨zeroPid binary32, rfl, zeroPid_inv⟩ }, ?_, by decide⟩
  change 0 + 0 * _ ≤ _
  rw [Nat.zero_mul]
  exact Nat.zero_le _

end Sys2Proof.Machine
end

section
/-! The decoder and the encoder (30_encoding.md): they are inverse to each other, and they agree with the opcode
table. -/

namespace Sys2Proof

/-! ### Narrow words -/

/-- The low bits of a narrow word are the value it was made of. -/
theorem extract_lowWord (slot : Slot) {n : Nat} (hn : n ≤ 88) (w : BitVec n) :
    (lowWord slot w.toNat).word.extractLsb' 0 n = w := by
  have hfit : w.toNat < 2 ^ 88 := w.isLt.trans_le (Nat.pow_le_pow_right (by decide) hn)
  apply BitVec.eq_of_toNat_eq
  rw [extract_toNat, lowWord_toNat slot hfit, pow_zero, Nat.div_one, Nat.mod_eq_of_lt w.isLt]

/-- A word that fits its format has the value of its low bits. -/
theorem extract_toNat_of_fits {n : Nat} {w : BitVec 88} (h : w.toNat < 2 ^ n) :
    (w.extractLsb' 0 n).toNat = w.toNat := by
  rw [extract_toNat, pow_zero, Nat.div_one, Nat.mod_eq_of_lt h]

/-- A word that fits its format is the narrow word of its low bits. -/
theorem lowWord_extract (slot : Slot) {n : Nat} {w : BitVec 88} (h : w.toNat < 2 ^ n) :
    lowWord slot (w.extractLsb' 0 n).toNat = ⟨slot, w⟩ := by
  rw [lowWord, extract_toNat_of_fits h, BitVec.ofNat_toNat, BitVec.setWidth_eq]

/-! ### The decoder reads back what the encoder wrote -/

/-- No encoded word is wider than its format (R81). -/
theorem encode_fits (i : Instr) : Laws.EncodeFits.Statement i := by
  cases i with
  | reset => exact Laws.EncodeFits.reset
  | iter inp => exact Laws.EncodeFits.iter inp
  | sample => exact Laws.EncodeFits.sample
  | phase => exact Laws.EncodeFits.phase
  | desired => exact Laws.EncodeFits.desired
  | measured => exact Laws.EncodeFits.measured
  | pwm => exact Laws.EncodeFits.pwm
  | out => exact Laws.EncodeFits.out
  | selNone => exact Laws.EncodeFits.selNone
  | selOff => exact Laws.EncodeFits.selOff
  | selRamp => exact Laws.EncodeFits.selRamp
  | selUnrec w => exact Laws.EncodeFits.selUnrec w
  | selClosed => exact Laws.EncodeFits.selClosed
  | selOpen => exact Laws.EncodeFits.selOpen
  | srcOff => exact Laws.EncodeFits.srcOff
  | ramp => exact Laws.EncodeFits.ramp
  | pid => exact Laws.EncodeFits.pid
  | quad b => exact Laws.EncodeFits.quad b
  | direct b => exact Laws.EncodeFits.direct b
  | tachSkip => exact Laws.EncodeFits.tachSkip
  | tach g => exact Laws.EncodeFits.tach g

/-- The decoder never turns an encoded word away for its width. -/
theorem decode_encode_eq_decodeAt (i : Instr) : decode (encode i) = decodeAt (encode i).slot (encode i).word :=
  if_pos (encode_fits i)

/-- A SEL word that is neither "no event" nor one-hot is SEL_UNREC (R82). -/
theorem decodeSel_of_not_recognised {w : BitVec 4} (h : selRecognised w = false) : decodeSel w = .selUnrec w := by
  revert w
  decide

/-- A GATE word other than 00 is TACH (R86). -/
theorem decodeGate_of_ne_zero {w : BitVec 2} (h : w ≠ 0b00#2) : decodeGate w = .tach w := if_neg h

/-- Settles O56: one case per operation. The operations with no operand have one word each; the iteration word and the
narrow words with an operand are read back by their round-trip lemmas. -/
theorem decodeOfEncodeIsTheInstruction : Obligations.DecodeOfEncodeIsTheInstruction := by
  intro i hwf
  rw [decode_encode_eq_decodeAt]
  cases i with
  | iter inp => exact congrArg (fun x => Except.ok (Instr.iter x)) (unpackIw_packIw hwf)
  | selUnrec w =>
    have hw : selRecognised w = false := by simpa [Instr.wf] using hwf
    change Except.ok (decodeSel ((lowWord .select w.toNat).word.extractLsb' 0 4)) = _
    rw [extract_lowWord _ (by decide), decodeSel_of_not_recognised hw]
  | tach g =>
    have hg : g ≠ 0b00#2 := by simpa [Instr.wf] using hwf
    change Except.ok (decodeGate ((lowWord .gate g.toNat).word.extractLsb' 0 2)) = _
    rw [extract_lowWord _ (by decide), decodeGate_of_ne_zero hg]
  | quad b | direct b => cases b <;> rfl
  | reset | sample | phase | desired | measured | pwm | out | selNone | selOff | selRamp | selClosed | selOpen
  | srcOff | ramp | pid | tachSkip => rfl

/-! ### The encoder writes back what the decoder read -/

theorem encode_decodeSel (w : BitVec 4) :
    (decodeSel w).wf = true ∧ encode (decodeSel w) = lowWord .select w.toNat := by
  revert w
  decide

theorem encode_decodeDutySource {w : BitVec 2} {i : Instr} (h : decodeDutySource w = some i) :
    i.wf = true ∧ encode i = lowWord .dutySource w.toNat := by
  have hall : ∀ w : BitVec 2, ∀ i ∈ decodeDutySource w, i.wf = true ∧ encode i = lowWord .dutySource w.toNat := by
    decide
  exact hall w i h

theorem encode_decodeOnTimeSource (w : BitVec 2) :
    (decodeOnTimeSource w).wf = true ∧ encode (decodeOnTimeSource w) = lowWord .onTimeSource w.toNat := by
  revert w
  decide

theorem encode_decodeGate (w : BitVec 2) :
    (decodeGate w).wf = true ∧ encode (decodeGate w) = lowWord .gate w.toNat := by
  revert w
  decide

/-- What decodes fits its format and is read at its slot (R81). -/
theorem decode_eq_ok {e : Encoded} {i : Instr} (h : decode e = .ok i) :
    e.word.toNat < 2 ^ formatWidth (slotFormat e.slot) ∧ decodeAt e.slot e.word = .ok i := by
  unfold decode at h
  split at h
  · exact ⟨‹_›, h⟩
  · cases h

/-- At the duty-cycle source's slot a word that decodes is not 00 (R85). -/
theorem decodeAt_dutySource_eq_ok {w : BitVec 88} {i : Instr} (h : decodeAt .dutySource w = .ok i) :
    decodeDutySource (w.extractLsb' 0 2) = some i := by
  unfold decodeAt at h
  cases hd : decodeDutySource (w.extractLsb' 0 2) with
  | none => simp [hd] at h
  | some j => simpa [hd] using h

theorem word_eq_zero_or_one {w : BitVec 88} (h : w.toNat < 2) : w = 0#88 ∨ w = 1#88 := by
  rcases Nat.le_one_iff_eq_zero_or_eq_one.1 (Nat.lt_succ_iff.1 h) with h0 | h1
  · exact Or.inl (BitVec.eq_of_toNat_eq h0)
  · exact Or.inr (BitVec.eq_of_toNat_eq h1)

/-- A word that decodes at the pin's slot is RST = 1 (R88). -/
theorem decodeAt_pin_eq_ok {w : BitVec 88} {i : Instr} (hfit : w.toNat < 2) (h : decodeAt .pin w = .ok i) :
    i = .reset ∧ w = 1#88 := by
  rcases word_eq_zero_or_one hfit with rfl | rfl
  · cases h
  · cases h
    exact ⟨rfl, rfl⟩

/-- The only word of an empty format (R81). -/
theorem word_eq_zero_of_fits {w : BitVec 88} (h : w.toNat < 2 ^ formatWidth .fixed) : w = 0#88 :=
  BitVec.eq_of_toNat_eq (Nat.lt_one_iff.1 h)

/-- Settles O57: one case per slot, by the round trip of the word read there. -/
theorem encodeOfDecodeIsTheWord : Obligations.EncodeOfDecodeIsTheWord := by
  rintro ⟨slot, w⟩ i h
  obtain ⟨hfit, hat⟩ := decode_eq_ok h
  cases slot with
  | pin =>
    obtain ⟨rfl, rfl⟩ := decodeAt_pin_eq_ok hfit hat
    exact ⟨rfl, rfl⟩
  | iteration =>
    cases hat
    exact ⟨iwFits_unpackIw w, congrArg (Encoded.mk .iteration) (packIw_unpackIw w)⟩
  | select =>
    cases hat
    obtain ⟨hwf, henc⟩ := encode_decodeSel (w.extractLsb' 0 4)
    exact ⟨hwf, henc.trans (lowWord_extract .select hfit)⟩
  | dutySource =>
    obtain ⟨hwf, henc⟩ := encode_decodeDutySource (decodeAt_dutySource_eq_ok hat)
    exact ⟨hwf, henc.trans (lowWord_extract .dutySource hfit)⟩
  | onTimeSource =>
    cases hat
    obtain ⟨hwf, henc⟩ := encode_decodeOnTimeSource (w.extractLsb' 0 2)
    exact ⟨hwf, henc.trans (lowWord_extract .onTimeSource hfit)⟩
  | gate =>
    cases hat
    obtain ⟨hwf, henc⟩ := encode_decodeGate (w.extractLsb' 0 2)
    exact ⟨hwf, henc.trans (lowWord_extract .gate hfit)⟩
  | sample | phase | desired | measured | pwm | out =>
    cases hat
    obtain rfl := word_eq_zero_of_fits hfit
    exact ⟨rfl, rfl⟩

/-! ### The opcode table -/

theorem rowsSelectedBy_inputs (n : Nat) : rowsSelectedBy .inputs n = [.ITER] := by
  simp [rowsSelectedBy, opcodeTable, fixedRows, selRows, modeGateRows]

theorem rowsSelectedBy_sel (w : BitVec 4) : rowsSelectedBy .sel w.toNat = [(decodeSel w).mnemonic] := by
  revert w
  decide

theorem rowsSelectedBy_gate (w : BitVec 2) : rowsSelectedBy .gate w.toNat = [(decodeGate w).mnemonic] := by
  revert w
  decide

/-- A MODE word selects the on-time source's row and, unless it is 00, the duty-cycle source's (R85). -/
theorem mem_rowsSelectedBy_mode (w : BitVec 2) (m : Mnemonic) :
    m ∈ rowsSelectedBy .mode w.toNat ↔
      (decodeDutySource w).map Instr.mnemonic = some m ∨ (decodeOnTimeSource w).mnemonic = m := by
  revert w
  cases m <;> decide

/-- The rows of the empty word: the operations that stand at a slot of their own (R87). -/
theorem rowsSelectedBy_fixed : rowsSelectedBy .fixed 0 = [.SAMPLE, .PHASE, .DESIRED, .MEASURED, .PWM, .OUT] := by
  decide

/-- A decoded operation's row is among those the table selects (R94): one case per slot. -/
theorem mnemonic_mem_rowsSelectedBy {e : Encoded} {i : Instr} (h : decode e = .ok i) :
    i.mnemonic ∈ rowsSelectedBy (slotFormat e.slot) e.word.toNat := by
  obtain ⟨hfit, hat⟩ := decode_eq_ok h
  obtain ⟨slot, w⟩ := e
  cases slot with
  | pin =>
    obtain ⟨rfl, rfl⟩ := decodeAt_pin_eq_ok hfit hat
    decide
  | iteration =>
    cases hat
    exact (rowsSelectedBy_inputs w.toNat).symm ▸ List.mem_singleton_self _
  | select =>
    cases hat
    change _ ∈ rowsSelectedBy .sel w.toNat
    rw [← extract_toNat_of_fits (n := 4) hfit, rowsSelectedBy_sel]
    exact List.mem_singleton_self _
  | dutySource =>
    change _ ∈ rowsSelectedBy .mode w.toNat
    rw [← extract_toNat_of_fits (n := 2) hfit, mem_rowsSelectedBy_mode]
    exact Or.inl (congrArg (Option.map Instr.mnemonic) (decodeAt_dutySource_eq_ok hat))
  | onTimeSource =>
    cases hat
    change _ ∈ rowsSelectedBy .mode w.toNat
    rw [← extract_toNat_of_fits (n := 2) hfit, mem_rowsSelectedBy_mode]
    exact Or.inr rfl
  | gate =>
    cases hat
    change _ ∈ rowsSelectedBy .gate w.toNat
    rw [← extract_toNat_of_fits (n := 2) hfit, rowsSelectedBy_gate]
    exact List.mem_singleton_self _
  | sample | phase | desired | measured | pwm | out =>
    cases hat
    obtain rfl := word_eq_zero_of_fits hfit
    decide

/-- Every operation a word matches is what the word decodes to at a slot of its format (R94): one case per format. -/
theorem exists_slot_of_mem_rowsSelectedBy {f : Format} {w : BitVec 88} {m : Mnemonic}
    (hfit : w.toNat < 2 ^ formatWidth f) (hm : m ∈ rowsSelectedBy f w.toNat) :
    ∃ slot i, slotFormat slot = f ∧ decode ⟨slot, w⟩ = .ok i ∧ i.mnemonic = m := by
  have hdecode : ∀ slot, slotFormat slot = f → decode ⟨slot, w⟩ = decodeAt slot w := by
    rintro slot rfl
    exact if_pos hfit
  cases f with
  | pin =>
    rcases word_eq_zero_or_one hfit with rfl | rfl
    · cases hm
    · obtain rfl : m = .RESET := List.mem_singleton.1 hm
      exact ⟨.pin, .reset, rfl, rfl, rfl⟩
  | inputs =>
    obtain rfl : m = .ITER := List.mem_singleton.1 (rowsSelectedBy_inputs w.toNat ▸ hm)
    exact ⟨.iteration, .iter (unpackIw w), rfl, hdecode _ rfl, rfl⟩
  | sel =>
    rw [← extract_toNat_of_fits (n := 4) hfit, rowsSelectedBy_sel] at hm
    exact ⟨.select, decodeSel (w.extractLsb' 0 4), rfl, hdecode _ rfl, (List.mem_singleton.1 hm).symm⟩
  | mode =>
    rw [← extract_toNat_of_fits (n := 2) hfit, mem_rowsSelectedBy_mode] at hm
    rcases hm with hduty | hontime
    · obtain ⟨i, hi, rfl⟩ := Option.map_eq_some_iff.1 hduty
      refine ⟨.dutySource, i, rfl, ?_, rfl⟩
      rw [hdecode _ rfl, decodeAt, hi]
    · exact ⟨.onTimeSource, decodeOnTimeSource (w.extractLsb' 0 2), rfl, hdecode _ rfl, hontime⟩
  | gate =>
    rw [← extract_toNat_of_fits (n := 2) hfit, rowsSelectedBy_gate] at hm
    exact ⟨.gate, decodeGate (w.extractLsb' 0 2), rfl, hdecode _ rfl, (List.mem_singleton.1 hm).symm⟩
  | fixed =>
    obtain rfl := word_eq_zero_of_fits hfit
    have hmem : m ∈ [Mnemonic.SAMPLE, .PHASE, .DESIRED, .MEASURED, .PWM, .OUT] := rowsSelectedBy_fixed ▸ hm
    simp only [List.mem_cons, List.not_mem_nil, or_false] at hmem
    rcases hmem with rfl | rfl | rfl | rfl | rfl | rfl
    · exact ⟨.sample, .sample, rfl, rfl, rfl⟩
    · exact ⟨.phase, .phase, rfl, rfl, rfl⟩
    · exact ⟨.desired, .desired, rfl, rfl, rfl⟩
    · exact ⟨.measured, .measured, rfl, rfl, rfl⟩
    · exact ⟨.pwm, .pwm, rfl, rfl, rfl⟩
    · exact ⟨.out, .out, rfl, rfl, rfl⟩

/-- Settles O58: both directions of the agreement, and the single row of every SEL and GATE word. -/
theorem decodeAgreesWithTheTable : Obligations.DecodeAgreesWithTheTable := by
  refine ⟨fun _ _ => mnemonic_mem_rowsSelectedBy, fun _ _ _ => exists_slot_of_mem_rowsSelectedBy, fun w => ?_,
    fun w => ?_⟩
  · rw [rowsSelectedBy_sel, List.length_singleton]
  · rw [rowsSelectedBy_gate, List.length_singleton]

/-! ### Words written out -/

/-- Settles O55: the decoder evaluated on each word. -/
theorem writtenWordsDecode : Obligations.WrittenWordsDecode :=
  ⟨rfl, rfl, rfl, rfl, rfl, rfl, rfl, rfl, rfl, rfl, rfl⟩

end Sys2Proof
end

section
/-! What an iteration does to each part of the state (45_iteration.md): the frames of the front and of the back, then
the fields of the state an iteration leaves, and the statements that follow from them. -/

namespace Sys2Proof.Machine

open Sys2Proof.Certificates

/-! ### The front and the back -/

/-- What the front leaves alone, and what of it the selector alone decides (R37). -/
theorem front_frame (s : State) :
    (front s).ontime = s.ontime ∧ (front s).pid = s.pid ∧ (front s).tach = s.tach ∧ (front s).ports = s.ports ∧
    (front s).latch = s.latch ∧ (front s).faulted = s.faulted ∧
    (front s).rps = (selected s.latch.sel s).rps ∧ (front s).pidRst = (selected s.latch.sel s).pidRst ∧
    (front s).duty = (sourced (selected s.latch.sel s)).duty ∧
    (front s).qPrevA = (sourced (selected s.latch.sel s)).qPrevA ∧
    (front s).ramp = (sourced (selected s.latch.sel s)).ramp := by
  rw [front_eq]
  simp [withWires, sourced_frame, selected_frame]

/-- What the back leaves alone: it writes PWM_OUT, TachometerState, RPS and the output ports (R37). -/
theorem back_frame (s : State) :
    (back s).duty = s.duty ∧ (back s).ontime = s.ontime ∧ (back s).mode = s.mode ∧ (back s).pidRst = s.pidRst ∧
    (back s).pid = s.pid ∧ (back s).qPrevA = s.qPrevA ∧ (back s).ramp = s.ramp ∧ (back s).ports = s.ports ∧
    (back s).latch = s.latch ∧ (back s).wires = s.wires ∧ (back s).faulted = s.faulted ∧ (back s).cfg = s.cfg := by
  simp [back, gated_frame, pwmState]

/-- The back drives the comparison of PWM (R105). -/
theorem back_pwmOut (s : State) : (back s).pwmOut = pwmOn s.wires.phase s.ontime := by
  simp [back, gated_frame, pwmState]

/-- The back's tachometer: with the output off and ONTIME not 0 nothing is sampled, otherwise TACH runs (R228). -/
theorem back_tach_cases (s : State) :
    ((back s).pwmOut = false ∧ s.ontime ≠ 0#7 ∧ (back s).tach = s.tach ∧ (back s).rps = s.rps) ∨
    (¬((back s).pwmOut = false ∧ s.ontime ≠ 0#7) ∧
      (back s).tach = (tachCall (windowIndex s.cfg s.latch.cnt) s.latch.tachIn s).tach ∧
      (back s).rps = (tachCall (windowIndex s.cfg s.latch.cnt) s.latch.tachIn s).rps) := by
  rw [back_pwmOut]
  have htach : (back s).tach = (gated (pwmState s)).tach := rfl
  have hrps : (back s).rps = (gated (pwmState s)).rps := rfl
  rw [htach, hrps, gated]
  by_cases hskip : (pwmState s).pwmOut = false ∧ (pwmState s).ontime ≠ 0#7
  · rw [if_pos hskip]
    exact Or.inl ⟨hskip.1, hskip.2, rfl, rfl⟩
  · rw [if_neg hskip]
    refine Or.inr ⟨hskip, ?_, ?_⟩
    · rw [tachCall_tach, tachCall_tach]
      rfl
    · rw [tachCall_rps, tachCall_rps]
      rfl

/-! ### The duty-cycle source by mode -/

theorem sourced_of_off {s : State} (h : s.mode = .off) : sourced s = s := by
  simp [sourced, h]

/-- RAMP leaves Q.PREV_A alone, and Off calls no source (R148). -/
theorem sourced_qPrevA {s : State} (h : s.mode = .off ∨ s.mode = .ramp) : (sourced s).qPrevA = s.qPrevA := by
  rcases h with h | h <;> simp [sourced, h, rampState]

/-- Only Ramp calls RAMP (R157). -/
theorem sourced_ramp {s : State} (h : s.mode ≠ .ramp) : (sourced s).ramp = s.ramp := by
  unfold sourced
  cases hm : s.mode with
  | ramp => exact absurd hm h
  | off | closedLoop | openLoop => rfl

/-! ### The fields of the state an iteration leaves -/

section Fields

variable {s t : State} {i : In} (h : exec (.iter i) s = .next t)
include h

theorem iter_wf : s.cfg.wf = true := (iter_eq_next.1 h).1

/-- The iteration as the back of what the on-time source left, which differs from the front in ONTIME and, in
ClosedLoop alone, in PIDState and PID_RST. -/
theorem iter_eq_back : ∃ u, runOnTimeSource (modeWord (front (latched i s))) (front (latched i s)) = .next u ∧
    t = back u ∧ u = { front (latched i s) with pid := u.pid, pidRst := u.pidRst, ontime := u.ontime } := by
  obtain ⟨-, -, -, u, hu, rfl⟩ := iter_eq_next.1 h
  exact ⟨u, hu, rfl, (runOnTimeSource_frame hu).1⟩

/-- What the front decides: the on-time source and the back leave it alone. -/
theorem iter_front :
    t.duty = (front (latched i s)).duty ∧ t.mode = (front (latched i s)).mode ∧
    t.qPrevA = (front (latched i s)).qPrevA ∧ t.ramp = (front (latched i s)).ramp ∧
    t.ports = (front (latched i s)).ports ∧ t.latch = (front (latched i s)).latch ∧
    t.faulted = (front (latched i s)).faulted ∧ t.cfg = (front (latched i s)).cfg := by
  obtain ⟨u, -, rfl, hu⟩ := iter_eq_back h
  rw [hu]
  simp only [back_frame, and_self]

theorem iter_mode : t.mode = (selTarget i.sel).getD s.mode := by
  rw [(iter_front h).2.1, front_mode]
  rfl

/-- The selector's mode is the final one (R81). -/
theorem iter_selected_mode : (selected i.sel (latched i s)).mode = t.mode :=
  (selected_mode _ _).trans (iter_mode h).symm

theorem iter_latch : t.latch = sampleIn s.cfg i := by
  obtain ⟨-, -, -, -, -, hlatch, -, -⟩ := iter_front h
  simp only [hlatch, front_frame]
  rfl

theorem iter_cfg : t.cfg = s.cfg := by
  obtain ⟨-, -, -, -, -, -, -, hcfg⟩ := iter_front h
  rw [hcfg, front_cfg]
  rfl

/-- Outside ClosedLoop the on-time source leaves PIDState and PID_RST as the selector left them (R37). -/
theorem iter_pid_of_ne_closedLoop (hm : t.mode ≠ .closedLoop) :
    t.pid = s.pid ∧ t.pidRst = (selected i.sel (latched i s)).pidRst := by
  obtain ⟨u, hu, rfl, -⟩ := iter_eq_back h
  rw [(iter_front h).2.1] at hm
  obtain ⟨hpid, hrst⟩ := (runOnTimeSource_frame hu).2 hm
  simp only [back_frame, hpid, hrst, front_frame]
  exact ⟨rfl, rfl⟩

/-- The tachometer in an iteration: not called with the output off and ONTIME not 0, otherwise one call on what the
front left in RPS and what the last iteration left in TachometerState (R228). -/
theorem iter_tach_cases :
    (t.pwmOut = false ∧ t.ontime ≠ 0#7 ∧ t.tach = s.tach ∧ t.rps = (selected i.sel (latched i s)).rps) ∨
    (¬(t.pwmOut = false ∧ t.ontime ≠ 0#7) ∧
      t.tach = (tachCall (window s.cfg i) i.tachIn s).tach ∧
      t.rps = if window s.cfg i = s.tach.win then (selected i.sel (latched i s)).rps
        else s.tach.acc % 2 ^ s.cfg.accW) := by
  have hwin : windowIndex s.cfg (sampleIn s.cfg i).cnt = window s.cfg i := windowIndex_eq (iter_wf h) _
  obtain ⟨u, -, rfl, hu⟩ := iter_eq_back h
  obtain ⟨hrps, htach, hlatch, hcfg⟩ : u.rps = (selected i.sel (latched i s)).rps ∧ u.tach = s.tach ∧
      u.latch = sampleIn s.cfg i ∧ u.cfg = s.cfg := by
    rw [hu]
    simp only [front_frame, front_cfg]
    exact ⟨rfl, rfl, rfl, rfl⟩
  have hcases := back_tach_cases u
  simp only [tachCall_tach, tachCall_rps, htach, hlatch, hcfg, hwin, hrps, sampleIn_tachIn] at hcases
  simpa only [tachCall_tach, back_frame] using hcases

end Fields

/-! ### RPS, T.ACC and the display -/

/-- The selector zeroes RPS or leaves it alone, and leaves it alone where it leaves MODE alone (R205). -/
theorem selected_rps (w : BitVec 4) (s : State) :
    (selected w s).rps = s.rps ∨ ((selected w s).rps = 0 ∧ (selected w s).mode ≠ s.mode) := by
  rcases selected_cases w s with ⟨-, heq⟩ | ⟨t, -, heq⟩ <;> rw [heq]
  · exact Or.inl rfl
  · rw [selectMode_mode]
    unfold selectMode
    split_ifs with hsame
    · exact Or.inl rfl
    · cases t with
      | off => exact Or.inl rfl
      | ramp | closedLoop | openLoop => exact Or.inr ⟨rfl, hsame⟩

/-- Settles O11: with the window unchanged a TACH call keeps RPS, and with the mode unchanged the selector does. -/
theorem rpsHoldsWithinAWindow : Obligations.RpsHoldsWithinAWindow := by
  intro s t i h hmode hwindow
  have hsel : (selected i.sel (latched i s)).rps = s.rps := by
    rcases selected_rps i.sel (latched i s) with hkeep | ⟨-, hchange⟩
    · exact hkeep
    · exact absurd ((iter_selected_mode h).trans hmode) hchange
  rcases iter_tach_cases h with ⟨-, -, -, hrps⟩ | ⟨-, -, hrps⟩
  · rw [hrps, hsel]
  · rw [hrps, if_pos hwindow, hsel]

/-- A TACH call adds at most one pulse, and none across a change of the window (R123, R124). -/
theorem tachCall_acc_le (w : Nat) (pin : Bool) (s : State) :
    (tachCall w pin s).tach.acc ≤ if w = s.tach.win then s.tach.acc + 1 else 0 := by
  rw [tachCall_tach]
  split_ifs
  · exact Nat.mod_le _ _
  · exact Nat.le_succ _
  · exact le_rfl

/-- Settles O12: the counter moved on by at least one tick. Without a TACH call the bound has more room than before. A
call in the same window adds at most one pulse, so the pulses still fit the ticks of the window, which the counter has
not left; a call in another window starts from 0 pulses. -/
theorem accumulatorBoundKeptUnderMonotoneCounter : Obligations.AccumulatorBoundKeptUnderMonotoneCounter := by
  rintro s t i ⟨hticks, hwindow⟩ hmono h
  obtain ⟨-, htime⟩ := hmono rfl
  have hlater : s.latch.cnt < (sampleIn s.cfg i).cnt := htime rfl
  rw [AccInv, iter_latch h, iter_cfg h]
  rcases iter_tach_cases h with ⟨-, -, htach, -⟩ | ⟨-, htach, -⟩
  · rw [htach]
    exact ⟨hticks.trans hlater.le, hwindow⟩
  · have hacc := tachCall_acc_le (window s.cfg i) i.tachIn s
    have hwin : t.tach.win ≤ window s.cfg i := by
      rw [htach, tachCall_tach]
      exact Nat.mod_le _ _
    rw [← htach] at hacc
    have hhalf : 0 < s.cfg.clockFreq / 2 := Nat.zero_lt_of_lt hwindow
    have hstart : window s.cfg i * (s.cfg.clockFreq / 2) ≤ (sampleIn s.cfg i).cnt := Nat.div_mul_le_self _ _
    have hend : (sampleIn s.cfg i).cnt < (window s.cfg i + 1) * (s.cfg.clockFreq / 2) :=
      (Nat.div_lt_iff_lt_mul hhalf).1 (Nat.lt_succ_self _)
    have hprod : t.tach.win * (s.cfg.clockFreq / 2) ≤ window s.cfg i * (s.cfg.clockFreq / 2) :=
      Nat.mul_le_mul_right _ hwin
    split_ifs at hacc with hsame
    · rw [← hsame] at hticks
      rw [Nat.succ_mul] at hend
      exact ⟨by omega, by omega⟩
    · exact ⟨by omega, by omega⟩

/-- A register of ACC_W bits shows whole on O_RPS: what an iteration leaves in RPS fits it (R11). -/
theorem iter_rps_lt {s t : State} {i : In} (hfits : Fits s) (h : exec (.iter i) s = .next t) :
    t.rps < 2 ^ s.cfg.accW := by
  have hsel : (selected i.sel (latched i s)).rps < 2 ^ s.cfg.accW := by
    rcases selected_rps i.sel (latched i s) with hkeep | ⟨hzero, -⟩
    · rw [hkeep]
      exact hfits.rps
    · rw [hzero]
      exact Nat.two_pow_pos _
  rcases iter_tach_cases h with ⟨-, -, -, hrps⟩ | ⟨-, -, hrps⟩ <;> rw [hrps]
  · exact hsel
  · split_ifs
    · exact hsel
    · exact Nat.mod_lt _ (Nat.two_pow_pos _)

/-- The output ports after an iteration: PWM_PIN holds PWM_OUT, and the display shows the state left (R232). -/
theorem back_out (s : State) : (back s).out = { displayed (back s) with pwmPin := (back s).pwmOut } := by
  have hpin : (gated (pwmState s)).out.pwmPin = (gated (pwmState s)).pwmOut := by
    simp only [gated_frame, pwmState, setOut_out, setOut_pwmOut, setPwmOut_pwmOut, writeOut_pwmPin_bitNat]
  exact congrArg (fun b => { displayed (back s) with pwmPin := b }) hpin

/-- Settles O39: the ports are those of the final state, and what they show of it fits them. -/
theorem displayShowsTheIterationsFinalState : Obligations.DisplayShowsTheIterationsFinalState := by
  intro s t i hfits h
  have hout : t.out = { displayed t with pwmPin := t.pwmOut } := by
    obtain ⟨u, -, rfl, -⟩ := iter_eq_back h
    exact back_out u
  have hduty := t.duty.isLt
  rw [hout]
  refine ⟨rfl, rfl, ?_, rfl, ?_, ?_, rfl, ?_⟩
  · change t.latch.altInfo = i.altInfo
    rw [iter_latch h, sampleIn_altInfo]
  · change t.rps % 2 ^ t.cfg.accW = t.rps
    rw [iter_cfg h, Nat.mod_eq_of_lt (iter_rps_lt hfits h)]
  · change (BitVec.ofNat 6 (t.duty.toNat / 2)).toNat = t.duty.toNat / 2
    rw [BitVec.toNat_ofNat, Nat.mod_eq_of_lt (by omega)]
  · change t.latch.pwmFreq % 2 ^ t.cfg.freqW = (sampleIn s.cfg i).pwmFreq
    rw [iter_latch h, iter_cfg h, sampleIn_pwmFreq, Nat.mod_mod]

/-! ### MODE, PID_RST and the private records -/

/-- The mode a SEL word asks for is the selector's target (R82). -/
theorem requestedMode_eq_selTarget (w : BitVec 4) : requestedMode w = selTarget w := rfl

/-- Settles O33: the selector alone writes MODE, and its target is the mode the word asks for. -/
theorem modeChangesOnlyByASelectorEvent : Obligations.ModeChangesOnlyByASelectorEvent := by
  intro s t i h
  rw [requestedMode_eq_selTarget, iter_mode h]

/-- The selector raises PID_RST on entry to ClosedLoop alone (R27). -/
theorem selected_pidRst {w : BitVec 4} {s : State} (h : (selected w s).mode ≠ .closedLoop) :
    (selected w s).pidRst = s.pidRst := by
  rcases selected_cases w s with ⟨-, heq⟩ | ⟨t, -, heq⟩
  · rw [heq]
  · rw [heq, selectMode_mode] at h
    rw [heq, selectMode_pidRst, if_neg fun hc => h hc.1]

/-- Settles O43: an iteration that ends in ClosedLoop called PID, which leaves PID_RST 0; any other leaves PID_RST as
the selector did, and the selector raised nothing. -/
theorem pidResetConsumedInTheSameIteration : Obligations.PidResetConsumedInTheSameIteration := by
  intro s t i hrst h
  by_cases hm : t.mode = .closedLoop
  · obtain ⟨u, hu, rfl, -⟩ := iter_eq_back h
    rw [(iter_front h).2.1] at hm
    rw [runOnTimeSource_eq, hm] at hu
    have hframe := execPid_frame hu
    simp only [back_frame]
    rw [hframe]
  · have hsel : (selected i.sel (latched i s)).mode ≠ .closedLoop := by rwa [iter_selected_mode h]
    rw [(iter_pid_of_ne_closedLoop h hm).2, selected_pidRst hsel]
    exact hrst

/-- Settles O44: in Off no source is called and ONTIME is written 0, which PWM cannot drive and which opens the
tachometer's gate. -/
theorem offDrivesNothingAndKeepsMeasuring : Obligations.OffDrivesNothingAndKeepsMeasuring := by
  intro s t i h hoff
  have htarget := (iter_mode h).symm.trans hoff
  have hselected : (selected i.sel (latched i s)).duty = s.duty := by
    rcases selected_cases i.sel (latched i s) with ⟨-, heq⟩ | ⟨m, hm, heq⟩
    · rw [heq]
      rfl
    · rw [hm] at htarget
      obtain rfl : m = .off := htarget
      rw [heq, selectMode_off]
      rfl
  have hduty : t.duty = s.duty := by
    have hsource : sourced (selected i.sel (latched i s)) = selected i.sel (latched i s) :=
      sourced_of_off ((iter_selected_mode h).trans hoff)
    rw [(iter_front h).1]
    simp only [front_frame]
    exact (congrArg State.duty hsource).trans hselected
  obtain ⟨u, hu, ht, -⟩ := iter_eq_back h
  have hontime : t.ontime = 0#7 := by
    rw [(iter_front h).2.1] at hoff
    rw [runOnTimeSource_eq, hoff] at hu
    cases hu
    rw [ht]
    simp only [back_frame, setOntime_ontime]
  have hpwm : t.pwmOut = false := by
    rw [ht] at hontime ⊢
    simp only [back_frame] at hontime
    rw [back_pwmOut, pwmOn_eq_false, hontime]
    exact Nat.zero_le _
  have hpin : t.out.pwmPin = t.pwmOut := by
    rw [ht, back_out]
  rcases iter_tach_cases h with ⟨-, hclosed, -, -⟩ | ⟨-, htach, -⟩
  · exact absurd hontime hclosed
  · rw [tachCall_tach] at htach
    exact ⟨hduty, hontime, hpwm, hpin.trans hpwm, by rw [htach], by rw [htach], by rw [htach]⟩

/-- Settles O45: each record is written by its own component alone, and which are called follows from the final MODE and
from the gate. -/
theorem uncalledComponentsKeepTheirRecords : Obligations.UncalledComponentsKeepTheirRecords := by
  intro s t i h
  obtain ⟨-, hmode, hq, hramp, -⟩ := iter_front h
  simp only [front_frame] at hq hramp
  refine ⟨fun hm => ?_, fun hm => ?_, fun hm => (iter_pid_of_ne_closedLoop h hm).1, fun hgate => ?_⟩
  · rw [← iter_selected_mode h] at hm
    refine hq.trans ((sourced_qPrevA hm).trans ?_)
    simp only [selected_frame]
    rfl
  · rw [← iter_selected_mode h] at hm
    refine hramp.trans ((sourced_ramp hm).trans ?_)
    simp only [selected_frame]
    rfl
  · rcases iter_tach_cases h with ⟨-, -, htach, -⟩ | ⟨hopen, -⟩
    · exact htach
    · exact absurd hgate hopen

end Sys2Proof.Machine
end

section
/-! What an iteration does not depend on: what an earlier one left in the latch and on the wires, the presented SEL word
when it names the mode in force, and PIDState outside ClosedLoop. In each case the three parts of the iteration commute
with the change of the state, or overwrite it. -/

namespace Sys2Proof.Machine

open Sys2Proof.Certificates

/-! ### Completion -/

/-- On a configuration outside R9 there is no iteration. -/
theorem iter_of_not_wf {s : State} (hw : s.cfg.wf = false) (i : In) :
    exec (.iter i) s = .refused .configOutOfRange := by
  change execIter i s = _
  rw [execIter, withCfg_of_not_wf hw]

/-- Every on-time source completes from a state inside the invariant. -/
theorem Inv.runOnTimeSource {s : State} (h : Inv s) : ∃ u, runOnTimeSource (modeWord s) s = .next u := by
  rw [runOnTimeSource_eq]
  cases s.mode with
  | closedLoop =>
    obtain ⟨u, hu, -⟩ := h.execPid
    exact ⟨u, hu⟩
  | off | ramp | openLoop => exact ⟨_, rfl⟩

/-- Settles O41: the front stays inside the invariant, so the on-time source completes, and with it the iteration, which
keeps the invariant as every operation does. -/
theorem iterCompletesInsideTheInvariant : Obligations.IterCompletesInsideTheInvariant := by
  intro s i hinv hn hf
  have hfront : Inv (front (latched i s)) := ((hinv.setPorts i).setLatch _).front
  obtain ⟨u, hu⟩ := hfront.runOnTimeSource
  have h : exec (.iter i) s = .next (back u) := iter_eq_next.2 ⟨hinv.cfg, hn, hf, u, hu, rfl⟩
  refine ⟨back u, h, exec_keeps_inv (.iter i) s _ hinv h, iter_latch h, ?_⟩
  obtain ⟨-, -, -, -, -, -, hfaulted, -⟩ := iter_front h
  simp only [hfaulted, front_frame]
  exact hn

/-! ### The latch, the ports and the wires -/

/-- The front computes all three wires afresh (R24). -/
theorem front_setWires (s : State) (w : Wires) : front (s.setWires w) = front s := by
  rw [front_eq, front_eq, setWires_latch, selected_setWires, sourced_setWires]
  rfl

/-- Two states that sample to the same state but for the wires have the same iteration. -/
theorem iter_congr {a b : State} {i : In} {w : Wires} (hcfg : a.cfg = b.cfg) (hfaulted : a.faulted = b.faulted)
    (hlatched : latched i a = (latched i b).setWires w) : exec (.iter i) a = exec (.iter i) b := by
  cases hw : b.cfg.wf with
  | false => rw [iter_of_not_wf hw, iter_of_not_wf (hcfg ▸ hw)]
  | true =>
    have hw' : a.cfg.wf = true := hcfg ▸ hw
    cases hn : b.faulted with
    | true => rw [iter_of_faulted hw hn, iter_of_faulted hw' (hfaulted.trans hn)]
    | false =>
      have hn' : a.faulted = false := hfaulted.trans hn
      by_cases hf : EnvFreq b.cfg (sampleIn b.cfg i)
      · rw [iter_eq hw hn hf, iter_eq hw' hn' (hcfg ▸ hf), hlatched, front_setWires]
      · rw [iter_degenerate hw hn hf, iter_degenerate hw' hn' (hcfg ▸ hf), hcfg]

/-- Settles O42: SAMPLE overwrites the ports and the latch, and the front the wires. -/
theorem iterReadsNoEarlierInputsOrWires : Obligations.IterReadsNoEarlierInputsOrWires := by
  intro s i p l w
  have hlatched : latched i { s with ports := p, latch := l, wires := w } = (latched i s).setWires w := rfl
  exact iter_congr rfl rfl hlatched

/-! ### The SEL word and PIDState -/

/-- The state with the inputs `i` at the ports, their SEL word in the latch and PIDState changed by `g`. After the
selector nothing but PID reads any of the three. -/
def withUnread (i : In) (g : PidState → PidState) (s : State) : State :=
  ((s.setPorts i).setLatch { s.latch with sel := i.sel }).setPid (g s.pid)

section Unread

variable (i : In) (g : PidState → PidState)

theorem withUnread_mode (s : State) : (withUnread i g s).mode = s.mode := rfl

/-- On a state that has sampled `i` only PIDState changes. -/
theorem withUnread_of_sampled {s : State} (hports : s.ports = i) (hsel : s.latch.sel = i.sel) :
    withUnread i g s = s.setPid (g s.pid) := by
  subst hports
  rw [withUnread, ← hsel]
  rfl

theorem selectMode_withUnread (t : Mode) (s : State) :
    selectMode t (withUnread i g s) = withUnread i g (selectMode t s) := by
  unfold selectMode
  rw [withUnread_mode]
  split_ifs
  · rfl
  · cases t <;> rfl

theorem selected_withUnread (w : BitVec 4) (s : State) :
    selected w (withUnread i g s) = withUnread i g (selected w s) := by
  unfold selected
  cases selTarget w with
  | none => rfl
  | some t => exact selectMode_withUnread i g t s

theorem sourced_withUnread (s : State) : sourced (withUnread i g s) = withUnread i g (sourced s) := by
  unfold sourced
  rw [withUnread_mode]
  cases s.mode <;> rfl

/-- Where the selector does the same for both SEL words, so does the front. -/
theorem front_withUnread {s : State} (hsel : selected i.sel s = selected s.latch.sel s) :
    front (withUnread i g s) = withUnread i g (front s) := by
  have hword : (withUnread i g s).latch.sel = i.sel := rfl
  rw [front_eq, front_eq, hword, selected_withUnread, sourced_withUnread, hsel]
  generalize sourced (selected s.latch.sel s) = c
  rfl

theorem tachCall_withUnread (w : Nat) (pin : Bool) (s : State) :
    tachCall w pin (withUnread i g s) = withUnread i g (tachCall w pin s) := by
  rw [tachCall_writes, tachCall_rps, tachCall_tach, tachCall_writes w pin s, tachCall_rps, tachCall_tach]
  rfl

theorem gated_withUnread (s : State) : gated (withUnread i g s) = withUnread i g (gated s) := by
  have hgated : gated (withUnread i g s) = if s.pwmOut = false ∧ s.ontime ≠ 0#7 then withUnread i g s
      else tachCall (windowIndex s.cfg s.latch.cnt) s.latch.tachIn (withUnread i g s) := rfl
  rw [hgated, tachCall_withUnread, ← apply_ite (withUnread i g)]
  rfl

theorem back_withUnread (s : State) : back (withUnread i g s) = withUnread i g (back s) := by
  have hpwm : pwmState (withUnread i g s) = withUnread i g (pwmState s) := rfl
  unfold back
  rw [hpwm, gated_withUnread]
  generalize gated (pwmState s) = c
  rfl

/-- Outside ClosedLoop the on-time source reads none of the three. -/
theorem runOnTimeSource_withUnread {s : State} (hm : s.mode ≠ .closedLoop) :
    runOnTimeSource (modeWord (withUnread i g s)) (withUnread i g s) =
      andThen (runOnTimeSource (modeWord s) s) fun u => .next (withUnread i g u) := by
  rw [runOnTimeSource_eq, runOnTimeSource_eq, withUnread_mode]
  cases hs : s.mode with
  | closedLoop => exact absurd hs hm
  | off | ramp | openLoop => rfl

/-- The control law reads neither the ports nor the latch. -/
theorem runPidLaw_withUnread (s : State) :
    runPidLaw (withUnread i id s) = andThen (runPidLaw s) fun u => .next (withUnread i id u) := by
  have hregs : (withUnread i id s).pid.regsAs (withUnread i id s).cfg.num = s.pid.regsAs s.cfg.num := rfl
  unfold runPidLaw
  rw [hregs]
  cases s.pid.regsAs s.cfg.num with
  | none => rfl
  | some p =>
    have hlaw : pidLaw (withUnread i id s).cfg.num.num p (withUnread i id s).wires.desired
      (withUnread i id s).wires.measured = pidLaw s.cfg.num.num p s.wires.desired s.wires.measured := rfl
    dsimp only
    rw [hlaw]
    cases pidLaw s.cfg.num.num p s.wires.desired s.wires.measured <;> rfl

/-- With a reset pending PID zeroes PIDState before it is read (R173). -/
theorem execPid_withUnread_of_pidRst {s : State} (hrst : s.pidRst = true) :
    execPid (withUnread i g s) = andThen (execPid s) fun u => .next (withUnread i id u) := by
  have hrst' : (withUnread i g s).pidRst = true := hrst
  have hconsume : consumePidReset (withUnread i g s) = withUnread i id (consumePidReset s) := rfl
  cases hc : s.cfg.pidResetComputes with
  | false =>
    rw [execPid_of_resetOnly hrst hc, execPid_of_resetOnly hrst' hc]
    rfl
  | true => rw [execPid_of_resetComputes hrst hc, execPid_of_resetComputes hrst' hc, hconsume, runPidLaw_withUnread]

/-- PID reads neither the ports nor the latch. -/
theorem execPid_withUnread (s : State) :
    execPid (withUnread i id s) = andThen (execPid s) fun u => .next (withUnread i id u) := by
  cases hrst : s.pidRst with
  | false =>
    have hrst' : (withUnread i id s).pidRst = false := hrst
    rw [execPid_of_noReset hrst, execPid_of_noReset hrst', runPidLaw_withUnread]
  | true => exact execPid_withUnread_of_pidRst i id hrst

end Unread

/-- The on-time source reads neither the ports nor the latch. -/
theorem runOnTimeSource_withUnread_id (i : In) (s : State) :
    runOnTimeSource (modeWord (withUnread i id s)) (withUnread i id s) =
      andThen (runOnTimeSource (modeWord s) s) fun u => .next (withUnread i id u) := by
  by_cases hm : s.mode = .closedLoop
  · rw [runOnTimeSource_eq, runOnTimeSource_eq, withUnread_mode, hm]
    exact execPid_withUnread i s
  · exact runOnTimeSource_withUnread i id hm

/-- A SEL word that names the mode in force selects nothing (R205). -/
theorem selected_of_same {w : BitVec 4} {s : State} (h : selTarget w = some s.mode) : selected w s = s := by
  simp [selected, h, selectMode]

/-- SEL 0000 selects nothing (R201). -/
theorem selected_noEvent (s : State) : selected 0b0000#4 s = s := rfl

/-- Settles O34: both SEL words select nothing, and after the selector nothing reads the word. -/
theorem sameModeEventIsNoEvent : Obligations.SameModeEventIsNoEvent := by
  intro s t i hsame h
  have hlatched : latched i s = withUnread i id (latched { i with sel := 0b0000#4 } s) := rfl
  have hselected : selected i.sel (latched { i with sel := 0b0000#4 } s) =
      selected 0b0000#4 (latched { i with sel := 0b0000#4 } s) :=
    (selected_of_same (s := latched { i with sel := 0b0000#4 } s) hsame).trans (selected_noEvent _).symm
  have ht : { t with ports := i, latch := sampleIn s.cfg i } = withUnread i id t := by
    rw [withUnread, iter_latch h]
    rfl
  obtain ⟨hw, hn, hf, u, hu, rfl⟩ := iter_eq_next.1 h
  rw [ht, ← back_withUnread]
  refine iter_eq_next.2 ⟨hw, hn, hf, withUnread i id u, ?_, rfl⟩
  rw [hlatched, front_withUnread i id hselected, runOnTimeSource_withUnread_id, hu, andThen_next]

/-- Entry to ClosedLoop from another mode raises PID_RST (R204). -/
theorem selected_pidRst_of_entry {w : BitVec 4} {s : State} (hm : s.mode ≠ .closedLoop)
    (h : (selected w s).mode = .closedLoop) : (selected w s).pidRst = true := by
  rcases selected_cases w s with ⟨-, heq⟩ | ⟨t, -, heq⟩
  · rw [heq] at h
    exact absurd h hm
  · rw [heq, selectMode_mode] at h
    rw [heq, selectMode_pidRst, if_pos ⟨h, hm⟩]

/-- The front of an iteration carries PIDState through. -/
theorem front_latched_setPid (i : In) (s : State) (p : PidState) :
    front (latched i (s.setPid p)) = withUnread i (fun _ => p) (front (latched i s)) := by
  have hlatched : latched i (s.setPid p) = withUnread i (fun _ => p) (latched i s) := rfl
  rw [hlatched, front_withUnread i _ rfl]

section Entry

variable {s t : State} {i : In} (h : exec (.iter i) s = .next t)
include h

theorem iter_ports : t.ports = i := by
  obtain ⟨-, -, -, -, hports, -⟩ := iter_front h
  simp only [hports, front_frame]
  rfl

theorem iter_sel : t.latch.sel = i.sel := by rw [iter_latch h, sampleIn_sel]

/-- An iteration that ends outside ClosedLoop carries any other PIDState through unread. -/
theorem iter_setPid_of_ne_closedLoop (hm : t.mode ≠ .closedLoop) (p : PidState) :
    exec (.iter i) (s.setPid p) = .next (t.setPid p) := by
  have ht : t.setPid p = withUnread i (fun _ => p) t :=
    (withUnread_of_sampled i (fun _ => p) (iter_ports h) (iter_sel h)).symm
  obtain ⟨-, hmode, -⟩ := iter_front h
  obtain ⟨hw, hn, hf, u, hu, hback⟩ := iter_eq_next.1 h
  refine iter_eq_next.2 ⟨hw, hn, hf, withUnread i (fun _ => p) u, ?_, by rw [back_withUnread, hback, ← ht]⟩
  rw [front_latched_setPid, runOnTimeSource_withUnread _ _ (hmode ▸ hm), hu, andThen_next]

/-- An iteration that enters ClosedLoop zeroes PIDState before it is read, whatever it was. -/
theorem iter_setPid_of_entry (hs : s.mode ≠ .closedLoop) (hm : t.mode = .closedLoop) (p : PidState) :
    exec (.iter i) (s.setPid p) = .next t := by
  have ht : t = withUnread i id t := (withUnread_of_sampled i id (iter_ports h) (iter_sel h)).symm
  have hrst : (front (latched i s)).pidRst = true := by
    simp only [front_frame]
    exact selected_pidRst_of_entry hs ((iter_selected_mode h).trans hm)
  obtain ⟨-, hmode, -⟩ := iter_front h
  have hfm : (front (latched i s)).mode = .closedLoop := hmode.symm.trans hm
  have hfm' : (withUnread i (fun _ => p) (front (latched i s))).mode = .closedLoop :=
    (withUnread_mode i _ _).trans hfm
  obtain ⟨hw, hn, hf, u, hu, hback⟩ := iter_eq_next.1 h
  rw [runOnTimeSource_eq, hfm] at hu
  refine iter_eq_next.2 ⟨hw, hn, hf, withUnread i id u, ?_, by rw [back_withUnread, hback, ← ht]⟩
  rw [front_latched_setPid, runOnTimeSource_eq, hfm']
  exact (execPid_withUnread_of_pidRst i _ hrst).trans (congrArg (andThen · _) hu)

end Entry

/-- Settles O35: an iteration that ends outside ClosedLoop carries PIDState through; one that enters ClosedLoop has
raised PID_RST on the way, so PID zeroes PIDState before anything reads it. -/
theorem pidStateInvisibleOutsideClosedLoop : Obligations.PidStateInvisibleOutsideClosedLoop := by
  intro s t i p hs h
  by_cases hm : t.mode = .closedLoop
  · exact ⟨t, iter_setPid_of_entry h hs hm p, rfl, fun _ => rfl, fun hc => absurd hm hc⟩
  · exact ⟨t.setPid p, iter_setPid_of_ne_closedLoop h hm p, rfl, fun hc => absurd hc hm,
      fun _ => ⟨(iter_pid_of_ne_closedLoop h hm).1, rfl⟩⟩

end Sys2Proof.Machine
end

section
/-! PHASE over the counter (40_phase_pwm.md): its period, and how many counter values of one period drive the output. -/

namespace Sys2Proof.Machine

open Sys2Proof.Certificates

/-! ### Periodicity -/

/-- PHASE looks at the counter modulo PERIOD (R102). -/
theorem phaseValue_add_period (c : Cfg) (cnt freq : Nat) :
    phaseValue c (cnt + c.clockFreq / freq) freq = phaseValue c cnt freq := by
  rw [phaseValue, phaseValue, period, Nat.add_mod_right]

/-- Settles O4: a counter one PERIOD further on has the same PWM_FREQ, so PHASE completes, and the same remainder. -/
theorem phaseIsPeriodic : Obligations.PhaseIsPeriodic := by
  intro s t h
  obtain ⟨hw, hf, rfl⟩ := execPhase_eq_next.1 h
  refine ⟨phaseValue_lt hw _ _, fun _ => ⟨_, execPhase_eq_next.2 ⟨hw, hf, rfl⟩, ?_⟩⟩
  exact phaseValue_add_period _ _ _

/-! ### Realised duty -/

/-- PHASE and then PWM drive the output exactly when PHASE of that counter is below ONTIME (R105). -/
theorem drivenAt_eq {s : State} (hw : s.cfg.wf = true) (hf : EnvFreq s.cfg s.latch) (n : Nat) :
    drivenAt s n = decide (phaseValue s.cfg n s.latch.pwmFreq < s.ontime.toNat) := by
  have hphase : exec .phase { s with latch := { s.latch with cnt := n } } = .next _ :=
    execPhase_eq_next.2 ⟨hw, hf, rfl⟩
  rw [drivenAt, hphase]
  rfl

/-- Inside one period of `100 * k` ticks PHASE is the tick divided by `k`, so it is below `b` on the first `b * k`
ticks. -/
theorem phaseValue_lt_iff {c : Cfg} (hc : c.wf = true) {freq k n b : Nat} (hperiod : c.clockFreq / freq = 100 * k)
    (hn : n < 100 * k) : phaseValue c n freq < b ↔ n < b * k := by
  have hk : 0 < k := by omega
  rw [phaseValue_eq hc, hperiod, Nat.mod_eq_of_lt hn, Nat.mul_div_mul_left n k (by decide),
    Nat.div_lt_iff_lt_mul hk]

/-- How many of the numbers below `n` are below `m`. -/
theorem length_filter_range_lt (m n : Nat) : ((List.range n).filter (· < m)).length = min m n := by
  induction n with
  | zero => simp
  | succ n ih =>
    rw [List.range_succ, List.filter_append, List.length_append, ih]
    by_cases h : n < m
    · simp [h]
      omega
    · simp [h]
      omega

/-- Settles O6: the counter values that drive the output are the first ONTIME * k of the period's. -/
theorem realisedDutyIsOntimeHundredths : Obligations.RealisedDutyIsOntimeHundredths := by
  intro s k hw hf hon hperiod
  have hdriven : ∀ n ∈ List.range (100 * k), drivenAt s n = decide (n < s.ontime.toNat * k) := by
    intro n hn
    rw [drivenAt_eq hw hf, decide_eq_decide]
    exact phaseValue_lt_iff hw hperiod (List.mem_range.1 hn)
  rw [List.filter_congr hdriven, length_filter_range_lt]
  exact Nat.min_eq_left (Nat.mul_le_mul_right k hon)

end Sys2Proof.Machine
end

section
/-! The Tachometer over several calls in one window (41_tachometer.md section 4). -/

namespace Sys2Proof.Machine

open Sys2Proof.Certificates

/-- A call on inputs of its own runs on the state that sampled them. -/
theorem callsOn_cons (op : Instr) (x : In) (xs : List In) (s : State) :
    callsOn op (x :: xs) s = andThen (exec op (latched x s)) (callsOn op xs) := rfl

/-- The state after one TACH call on the inputs `x`. -/
def tachOn (x : In) (s : State) : State := tachCall (window s.cfg x) x.tachIn (latched x s)

theorem callsOn_tach_cons {s : State} (hw : s.cfg.wf = true) (g : BitVec 2) (x : In) (xs : List In) :
    callsOn (.tach g) (x :: xs) s = callsOn (.tach g) xs (tachOn x s) := by
  have hcall : exec (.tach g) (latched x s) = .next (tachOn x s) := by
    refine execTach_eq_next.2 ⟨hw, ?_⟩
    rw [windowIndex_eq (c := (latched x s).cfg) hw]
    rfl
  rw [callsOn_cons, hcall, andThen_next]

theorem tachOn_cfg (x : In) (s : State) : (tachOn x s).cfg = s.cfg := by
  simp only [tachOn, tachCall_frame]
  rfl

/-- Calls in the window that T.WIN holds: the conditions R131 speaks under, for the calls still to come. -/
structure InWindow (xs : List In) (s : State) : Prop where
  wf : s.cfg.wf = true
  win : s.tach.win < 2 ^ s.cfg.winW
  all : ∀ x ∈ xs, window s.cfg x = s.tach.win

/-- Inside the window a call moves the history, counts an edge and leaves RPS alone (R121 to R125). -/
theorem InWindow.tachOn_eq {x : In} {xs : List In} {s : State} (h : InWindow (x :: xs) s) :
    (tachOn x s).rps = s.rps ∧
      (tachOn x s).tach =
        { win := s.tach.win
          prev := x.tachIn
          prev2 := s.tach.prev
          acc := if tachEdge x.tachIn s.tach.prev s.tach.prev2 then (s.tach.acc + 1) % 2 ^ s.cfg.accW
            else s.tach.acc } := by
  have hx : window s.cfg x = (latched x s).tach.win := h.all x List.mem_cons_self
  rw [tachOn, tachCall_rps, tachCall_tach, if_pos hx, if_pos hx, hx]
  refine ⟨rfl, ?_⟩
  rw [Nat.mod_eq_of_lt (show (latched x s).tach.win < 2 ^ (latched x s).cfg.winW from h.win)]
  rfl

theorem InWindow.tail {x : In} {xs : List In} {s : State} (h : InWindow (x :: xs) s) : InWindow xs (tachOn x s) := by
  obtain ⟨-, htach⟩ := h.tachOn_eq
  constructor
  · rw [tachOn_cfg]
    exact h.wf
  · rw [tachOn_cfg, htach]
    exact h.win
  · intro y hy
    rw [tachOn_cfg, htach]
    exact h.all y (List.mem_cons_of_mem x hy)

/-- What calls in one window come to: they complete with the count `acc` and RPS as it was. -/
def CountsTo (g : BitVec 2) (xs : List In) (s : State) (acc : Nat) : Prop :=
  ∃ t, callsOn (.tach g) xs s = .next t ∧ t.tach.acc = acc ∧ t.rps = s.rps

/-- The first of several calls: the others run on the state it left, with RPS as it was. -/
theorem InWindow.countsTo_cons {g : BitVec 2} {x : In} {xs : List In} {s : State} {acc : Nat}
    (h : InWindow (x :: xs) s) (hrest : CountsTo g xs (tachOn x s) acc) : CountsTo g (x :: xs) s acc := by
  obtain ⟨t, ht, hacc, hrps⟩ := hrest
  refine ⟨t, ?_, hacc, hrps.trans h.tachOn_eq.1⟩
  rw [callsOn_tach_cons h.wf, ht]

/-- A call with no edge counts nothing. -/
theorem InWindow.tachOn_acc_of_noEdge {x : In} {xs : List In} {s : State} (h : InWindow (x :: xs) s)
    (hedge : tachEdge x.tachIn s.tach.prev s.tach.prev2 = false) : (tachOn x s).tach.acc = s.tach.acc := by
  rw [h.tachOn_eq.2, hedge]
  rfl

/-- A pulse that is under way is not counted again while it stays 1. -/
theorem InWindow.countsTo_of_underWay {g : BitVec 2} {xs : List In} {s : State} (h : InWindow xs s)
    (hprev : s.tach.prev = true) (hprev2 : s.tach.prev2 = true) (hxs : ∀ x ∈ xs, x.tachIn = true) :
    CountsTo g xs s s.tach.acc := by
  induction xs generalizing s with
  | nil => exact ⟨s, rfl, rfl, rfl⟩
  | cons x xs ih =>
    have hx : x.tachIn = true := hxs x List.mem_cons_self
    have hedge : tachEdge x.tachIn s.tach.prev s.tach.prev2 = false := by rw [hprev, hprev2, hx]; rfl
    have hnext := h.tachOn_eq.2
    rw [← h.tachOn_acc_of_noEdge hedge]
    refine h.countsTo_cons (ih h.tail ?_ ?_ fun y hy => hxs y (List.mem_cons_of_mem x hy))
    · rw [hnext, hx]
    · rw [hnext, hprev]

/-- A pulse of at least two samples after a low one is counted at its second sample, and only there. -/
theorem InWindow.countsTo_of_pulse {g : BitVec 2} {xs : List In} {s : State} (h : InWindow xs s)
    (hprev : s.tach.prev = false) (hlen : 2 ≤ xs.length) (hxs : ∀ x ∈ xs, x.tachIn = true) :
    CountsTo g xs s ((s.tach.acc + 1) % 2 ^ s.cfg.accW) := by
  obtain ⟨x, y, rest, rfl⟩ : ∃ x y rest, xs = x :: y :: rest := by
    match xs, hlen with
    | x :: y :: rest, _ => exact ⟨x, y, rest, rfl⟩
  have hx : x.tachIn = true := hxs x (by simp)
  have hy : y.tachIn = true := hxs y (by simp)
  have hfirst := h.tachOn_eq.2
  have hsecond := h.tail.tachOn_eq.2
  have hrise : tachEdge x.tachIn s.tach.prev s.tach.prev2 = false := by rw [hprev, hx]; rfl
  have hedge : tachEdge y.tachIn (tachOn x s).tach.prev (tachOn x s).tach.prev2 = true := by
    rw [hfirst, hprev, hx, hy]
    rfl
  have hcount : (tachOn y (tachOn x s)).tach.acc = (s.tach.acc + 1) % 2 ^ s.cfg.accW := by
    rw [hsecond, hedge, if_pos rfl, h.tachOn_acc_of_noEdge hrise, tachOn_cfg]
  rw [← hcount]
  have hrest : ∀ z ∈ rest, z.tachIn = true := fun z hz => hxs z (by simp [hz])
  refine h.countsTo_cons (h.tail.countsTo_cons (h.tail.tail.countsTo_of_underWay ?_ ?_ hrest))
  · rw [hsecond, hy]
  · rw [hsecond, hfirst, hx]

/-- Settles O10: each clause is a first call or two, and then the calls of a pulse or of one that is under way. -/
theorem tachFiltersGlitchesAndCountsOnce : Obligations.TachFiltersGlitchesAndCountsOnce := by
  intro s g xs hw hwin hall
  have h : InWindow xs s := ⟨hw, hwin, hall⟩
  refine ⟨fun hprev hmap => ?_, fun hprev hlen hxs => h.countsTo_of_pulse hprev hlen hxs,
    fun z hz hlow hlen hxs => ?_, fun hprev hprev2 hxs => h.countsTo_of_underWay hprev hprev2 hxs⟩
  · obtain ⟨x, y, rfl⟩ : ∃ x y, xs = [x, y] := List.length_eq_two.1 (by simpa using congrArg List.length hmap)
    simp only [List.map_cons, List.map_nil, List.cons.injEq, and_true] at hmap
    obtain ⟨hx, hy⟩ := hmap
    have hrise : tachEdge x.tachIn s.tach.prev s.tach.prev2 = false := by rw [hprev, hx]; rfl
    have hfall : tachEdge y.tachIn (tachOn x s).tach.prev (tachOn x s).tach.prev2 = false := by rw [hy]; rfl
    refine h.countsTo_cons (h.tail.countsTo_cons ⟨_, rfl, ?_, rfl⟩)
    rw [h.tail.tachOn_acc_of_noEdge hfall, h.tachOn_acc_of_noEdge hrise]
  · have hzs : InWindow (z :: xs) s :=
      ⟨hw, hwin, fun x hx => (List.mem_cons.1 hx).elim (fun heq => heq ▸ hz) (hall x)⟩
    have hedge : tachEdge z.tachIn s.tach.prev s.tach.prev2 = false := by rw [hlow]; rfl
    have hlow' : (tachOn z s).tach.prev = false := by rw [hzs.tachOn_eq.2, hlow]
    have hpulse := hzs.tail.countsTo_of_pulse (g := g) hlow' hlen hxs
    rw [hzs.tachOn_acc_of_noEdge hedge, tachOn_cfg] at hpulse
    exact hzs.countsTo_cons hpulse

end Sys2Proof.Machine
end

section
/-! The Duty-Cycle Sources over several calls (42_duty_sources.md): the bounds on what they leave, one turn of the knob,
and the sweep of RAMP. -/

namespace Sys2Proof.Machine

open Sys2Proof.Certificates

/-! ### Bounds -/

/-- Settles O18: both sources store a clamped value. -/
theorem dutySourcesClampEveryWrite : Obligations.DutySourcesClampEveryWrite := by
  rintro s t b hw (h | h)
  · cases (execQuad_eq s).symm.trans h
    exact clampedDuty_le hw _
  · cases (execRamp_eq s).symm.trans h
    exact clampedDuty_le hw _

/-- Settles O17: a call either clears the count or leaves it below the threshold, which an 8-bit multiplier keeps at or
below 255,000. -/
theorem rampElapsedStaysBelow255000 : Obligations.RampElapsedStaysBelow255000 := by
  intro s t hw hmult helapsed h
  have hthreshold : (sampleIn s.cfg s.ports).rampMult < 256 := by
    rw [sampleIn_rampMult, hmult]
    exact Nat.mod_lt _ (by decide)
  have ht : t.ramp.elapsed = rampElapsed s.cfg s.ramp.elapsed (sampleIn s.cfg s.ports).rampMult % 2 ^ 32 := by
    rw [← helapsed]
    cases h
    rfl
  rw [ht, rampElapsed_mod hw]
  split_ifs
  · exact ⟨by decide, Or.inl rfl⟩
  · rw [Nat.mod_eq_of_lt (by omega)]
    exact ⟨by omega, Or.inr rfl⟩

/-! ### One turn of the knob -/

/-- The state after one QUAD call on the inputs `x`. -/
def quadOn (x : In) (s : State) : State := quadState (latched x s)

/-- Where the clamp does not act a call leaves the sum of its rule in DUTY (R140 to R144). -/
theorem quadOn_duty {x : In} {s : State} {d : Nat} (hw : s.cfg.wf = true) (hd : d ≤ 100)
    (hsum : quadDuty s.duty.toNat (sampleIn s.cfg x).resp x.quadA x.quadB s.qPrevA = d) :
    (quadOn x s).duty.toNat = d := by
  have hstore : ((quadOn x s).duty.toNat : Int) =
      clampInt (quadDuty s.duty.toNat (sampleIn s.cfg x).resp x.quadA x.quadB s.qPrevA) 0 100 :=
    clampedDuty_toNat hw _
  rw [hsum, clampInt_of_mem (Int.natCast_nonneg d) (by exact_mod_cast hd)] at hstore
  exact_mod_cast hstore

/-- Four calls on inputs that share the step: DUTY follows the sums as long as each stays in 0..100. -/
theorem callsOn_quad_four {b : Bool} {s : State} {w x y z : In} {d1 d2 d3 d4 : Nat} (hw : s.cfg.wf = true)
    (h1 : d1 ≤ 100) (h2 : d2 ≤ 100) (h3 : d3 ≤ 100) (h4 : d4 ≤ 100)
    (hw1 : quadDuty s.duty.toNat (sampleIn s.cfg w).resp w.quadA w.quadB s.qPrevA = d1)
    (hx2 : quadDuty d1 (sampleIn s.cfg x).resp x.quadA x.quadB w.quadA = d2)
    (hy3 : quadDuty d2 (sampleIn s.cfg y).resp y.quadA y.quadB x.quadA = d3)
    (hz4 : quadDuty d3 (sampleIn s.cfg z).resp z.quadA z.quadB y.quadA = d4) :
    ∃ t, callsOn (.quad b) [w, x, y, z] s = .next t ∧ t.duty.toNat = d4 := by
  have e1 := quadOn_duty hw h1 hw1
  have e2 := quadOn_duty (x := x) (s := quadOn w s) hw h2 (by rw [e1]; exact hx2)
  have e3 := quadOn_duty (x := y) (s := quadOn x (quadOn w s)) hw h3 (by rw [e2]; exact hy3)
  exact ⟨_, rfl, quadOn_duty (x := z) (s := quadOn y (quadOn x (quadOn w s))) hw h4 (by rw [e3]; exact hz4)⟩

/-- Without a transition of A there is no step (R141). -/
theorem quadDuty_of_still (d step : Nat) (a b : Bool) : quadDuty d step a b a = d := by simp [quadDuty]

/-- A transition of A to a level other than B's adds the step (R142). -/
theorem quadDuty_of_up (d step : Nat) {a b prevA : Bool} (ha : a ≠ prevA) (hb : a ≠ b) :
    quadDuty d step a b prevA = (d + step : Nat) := by
  rw [quadDuty_eq, if_pos ha, if_pos hb, Nat.cast_add]

/-- A transition of A to B's level subtracts the step (R142). -/
theorem quadDuty_of_down {d step : Nat} {a prevA : Bool} (ha : a ≠ prevA) (hd : step ≤ d) :
    quadDuty d step a a prevA = (d - step : Nat) := by
  rw [quadDuty_eq, if_pos ha, if_neg (by simp), Nat.cast_sub hd]

/-- Settles O14: of the four samples of a turn the two in which A changes move DUTY, both the same way. -/
theorem quadTurnMovesTwoSteps : Obligations.QuadTurnMovesTwoSteps := by
  intro s b x hw hprev hduty
  constructor
  · intro htop
    obtain ⟨t, ht, hsum⟩ := callsOn_quad_four (b := b) (s := s)
      (w := { x with quadA := true, quadB := false }) (x := { x with quadA := true, quadB := true })
      (y := { x with quadA := false, quadB := true }) (z := { x with quadA := false, quadB := false }) hw
      (by omega) (by omega) (by omega) (by omega)
      (quadDuty_of_up _ (sampleIn s.cfg x).resp (by simp [hprev]) (by simp)) (quadDuty_of_still _ _ _ _)
      (quadDuty_of_up _ (sampleIn s.cfg x).resp (by simp) (by simp)) (quadDuty_of_still _ _ _ _)
    exact ⟨t, ht, by omega⟩
  · intro hbottom
    obtain ⟨t, ht, hsum⟩ := callsOn_quad_four (b := b) (s := s)
      (w := { x with quadA := false, quadB := true }) (x := { x with quadA := true, quadB := true })
      (y := { x with quadA := true, quadB := false }) (z := { x with quadA := false, quadB := false }) hw
      (by omega) (by omega) (by omega) (by omega)
      (by rw [hprev]; exact quadDuty_of_still _ _ _ _)
      (quadDuty_of_down (step := (sampleIn s.cfg x).resp) (by simp) (by omega)) (quadDuty_of_still _ _ _ _)
      (quadDuty_of_down (step := (sampleIn s.cfg x).resp) (by simp) (by omega))
    exact ⟨t, ht, by omega⟩

/-! ### The sweep -/

theorem runOps_append (xs ys : List Instr) (s : State) :
    runOps (xs ++ ys) s = andThen (runOps xs s) (runOps ys) := by
  induction xs generalizing s with
  | nil => rfl
  | cons op xs ih =>
    change andThen (exec op s) (runOps (xs ++ ys)) = andThen (andThen (exec op s) (runOps xs)) (runOps ys)
    cases exec op s with
    | next t => exact ih t
    | fault f => rfl
    | refused e => rfl

/-- One more call at the end. -/
theorem runOps_replicate_succ {op : Instr} {n : Nat} {s t : State} (h : runOps (List.replicate n op) s = .next t) :
    runOps (List.replicate (n + 1) op) s = exec op t := by
  rw [List.replicate_succ', runOps_append, h, andThen_next]
  change andThen (exec op t) (fun u => .next u) = exec op t
  cases exec op t <;> rfl

/-- DUTY at position `j` of the round of 200 unit steps (R155). -/
def sweepDuty (j : Nat) : Nat := if j ≤ 100 then j else 200 - j

/-- RAMP.DIR and RAMP.ELAPSED at position `j` of the round, `e` calls after its unit step. -/
def sweepRamp (j e : Nat) : RampRegs := { dir := decide (100 ≤ j), elapsed := e }

/-- The state at position `j` of the round, `e` calls after its unit step. -/
def swept (s : State) (j e : Nat) : State :=
  { s with duty := BitVec.ofNat 7 (sweepDuty j), ramp := sweepRamp j e }

theorem sweepDuty_le (j : Nat) : sweepDuty j ≤ 100 := by
  unfold sweepDuty
  split <;> omega

theorem swept_duty_toNat (s : State) (j e : Nat) : (swept s j e).duty.toNat = sweepDuty j :=
  (BitVec.toNat_ofNat _ _).trans (Nat.mod_eq_of_lt ((sweepDuty_le j).trans_lt (by decide)))

/-- A RAMP call on a state of the sweep, when the unclamped value of its rule is DUTY of the position it reaches and the
flip sets that position's direction (R150 to R154). -/
theorem execRamp_swept {s : State} {j e j' e' : Nat} (hw : s.cfg.wf = true)
    (hduty : (sweepDuty j' : Int) = if 1000 * s.latch.rampMult ≤ e + 1 then
      (if decide (100 ≤ j) = false then (sweepDuty j : Int) + 1 else (sweepDuty j : Int) - 1) else (sweepDuty j : Int))
    (hdir : (if 100 ≤ (sweepDuty j' : Int) then true else if (sweepDuty j' : Int) ≤ 0 then false
      else decide (100 ≤ j)) = decide (100 ≤ j'))
    (helapsed : (if 1000 * s.latch.rampMult ≤ e + 1 then 0 else (e + 1) % 2 ^ s.cfg.elapsedW) = e') :
    exec .ramp (swept s j e) = .next (swept s j' e') := by
  rw [← swept_duty_toNat s j e] at hduty
  have hclamp : (max 0 (min 100 (sweepDuty j' : Int))).toNat = sweepDuty j' := by
    have hle := sweepDuty_le j'
    omega
  rw [rampCountsStepsFlipsClamps (swept s j e) (sweepDuty j') hw hduty, hclamp]
  refine congrArg (fun r => Host.Outcome.next { swept s j e with duty := BitVec.ofNat 7 (sweepDuty j'), ramp := r }) ?_
  exact congrArg₂ RampRegs.mk hdir helapsed

/-- RAMP's flip at position `j` sets the position's direction: the ends of the sweep are where DUTY is 100 and 0, and
between them the direction, `dir`, is the position's already (R153). -/
theorem flip_sweepDuty {j : Nat} {dir : Bool} (hj : j < 200) (hdir : j ≠ 0 → j ≠ 100 → dir = decide (100 ≤ j)) :
    (if 100 ≤ (sweepDuty j : Int) then true else if (sweepDuty j : Int) ≤ 0 then false else dir) =
      decide (100 ≤ j) := by
  have htop : 100 ≤ (sweepDuty j : Int) ↔ j = 100 := by
    unfold sweepDuty
    split_ifs <;> omega
  have hbottom : (sweepDuty j : Int) ≤ 0 ↔ j = 0 := by
    unfold sweepDuty
    split_ifs <;> omega
  simp only [htop, hbottom]
  split_ifs with h100 h0
  · rw [h100, decide_eq_true le_rfl]
  · rw [h0]
    rfl
  · exact hdir h0 h100

/-- Before the threshold a call counts and moves nothing else: at the two ends of the sweep the direction is already the
one the flip sets. -/
theorem execRamp_swept_counts {s : State} {j e : Nat} (hw : s.cfg.wf = true) (hj : j < 200)
    (hbelow : e + 1 < 1000 * s.latch.rampMult) (hfits : e + 1 < 2 ^ s.cfg.elapsedW) :
    exec .ramp (swept s j e) = .next (swept s j (e + 1)) := by
  have hnot : ¬1000 * s.latch.rampMult ≤ e + 1 := Nat.not_le.2 hbelow
  refine execRamp_swept hw ?_ (flip_sweepDuty hj fun _ _ => rfl) ?_
  · rw [if_neg hnot]
  · rw [if_neg hnot, Nat.mod_eq_of_lt hfits]

/-- At the threshold a call moves to the next position of the round. -/
theorem execRamp_swept_steps {s : State} {j e : Nat} (hw : s.cfg.wf = true) (hj : j < 200)
    (hat : 1000 * s.latch.rampMult ≤ e + 1) :
    exec .ramp (swept s j e) = .next (swept s ((j + 1) % 200) 0) := by
  refine execRamp_swept hw ?_ (flip_sweepDuty (Nat.mod_lt _ (by decide)) fun h0 h100 => ?_) (if_pos hat)
  · rw [if_pos hat]
    simp only [decide_eq_false_iff_not]
    unfold sweepDuty
    split_ifs <;> omega
  · rw [decide_eq_decide]
    omega

/-- Quotient and remainder of the next number, where it does not reach the next multiple. -/
theorem succ_div_mod_of_lt {n k : Nat} (h : n % k + 1 < k) : (n + 1) / k = n / k ∧ (n + 1) % k = n % k + 1 := by
  refine (Nat.div_mod_unique (by omega)).2 ⟨?_, h⟩
  rw [Nat.add_right_comm, Nat.mod_add_div]

/-- Quotient and remainder of the next number, where it is a multiple. -/
theorem succ_div_mod_of_le {n k : Nat} (hk : 0 < k) (h : k ≤ n % k + 1) :
    (n + 1) / k = n / k + 1 ∧ (n + 1) % k = 0 := by
  have hr := Nat.mod_lt n hk
  have hn := Nat.mod_add_div n k
  refine (Nat.div_mod_unique hk).2 ⟨?_, hk⟩
  rw [Nat.mul_succ]
  omega

/-- Settles O16: by induction on the number of calls. The calls of one position count up to the threshold, and the call
that reaches it moves on to the next. -/
theorem rampSweepsUpAndDownForEver : Obligations.RampSweepsUpAndDownForEver := by
  rintro s m n j hw hduty hramp rfl hm hfits rfl
  suffices hswept : runOps (List.replicate n .ramp) s =
      .next (swept s (n / (1000 * s.latch.rampMult) % 200) (n % (1000 * s.latch.rampMult))) from hswept
  have hpos : 0 < 1000 * s.latch.rampMult := by omega
  induction n with
  | zero =>
    have hstart : swept s 0 0 = s := by
      obtain ⟨⟩ := s
      subst hduty hramp
      rfl
    rw [Nat.zero_div, Nat.zero_mod, Nat.zero_mod, hstart]
    rfl
  | succ n ih =>
    have hj : n / (1000 * s.latch.rampMult) % 200 < 200 := Nat.mod_lt _ (by decide)
    rw [runOps_replicate_succ ih]
    rcases Nat.lt_or_ge (n % (1000 * s.latch.rampMult) + 1) (1000 * s.latch.rampMult) with hbelow | hat
    · rw [execRamp_swept_counts hw hj hbelow (hbelow.trans_le hfits)]
      obtain ⟨hdiv, hmod⟩ := succ_div_mod_of_lt hbelow
      rw [hdiv, hmod]
    · rw [execRamp_swept_steps hw hj hat]
      obtain ⟨hdiv, hmod⟩ := succ_div_mod_of_le hpos hat
      rw [hdiv, hmod, Nat.mod_add_mod]

end Sys2Proof.Machine
end

section
/-! The PID Controller (43_pid.md): the reset call without an error, the two ways PID stops, and the constants. -/

namespace Sys2Proof.Machine

open Sys2Proof.Certificates

/-- With DESIRED = MEASURED the error is that of equal speeds, so the law's result is the same for every pair (R174). -/
theorem pidLaw_of_no_error {α : Type} (N : Num α) (p : PidRegs α) (n : Nat) : pidLaw N p n n = pidLaw N p 0 0 := by
  have herror : pidError N n n = pidError N 0 0 := by
    unfold pidError
    rw [sub_self, sub_self]
  unfold pidLaw
  rw [herror]

/-- In every NUM the law without an error, from the zeroed PIDState, answers ONTIME 0 (R180). -/
theorem pidLaw_zeroPid_of_no_error (k : NumKind) (n : Nat) :
    ∃ q, pidLaw k.num (zeroPid k.num) n n = some (q, 0) := by
  rw [pidLaw_of_no_error]
  have hontime : (pidLaw k.num (zeroPid k.num) 0 0).map Prod.snd = some 0 := by
    cases k <;> decide +kernel
  obtain ⟨⟨q, on⟩, hlaw, rfl⟩ := Option.map_eq_some_iff.1 hontime
  exact ⟨q, hlaw⟩

/-- Settles O22: under one reading the call ends with ONTIME 0 at once, under the other the law computes it. -/
theorem pidResetCallWithoutErrorGivesZero : Obligations.PidResetCallWithoutErrorGivesZero := by
  intro s hrst herror
  cases hc : s.cfg.pidResetComputes with
  | false => exact ⟨_, execPid_of_resetOnly hrst hc, rfl, rfl⟩
  | true =>
    obtain ⟨q, hlaw⟩ := pidLaw_zeroPid_of_no_error s.cfg.num s.wires.measured
    have hlaw' : pidLaw s.cfg.num.num (zeroPid s.cfg.num.num) s.wires.desired s.wires.measured = some (q, 0) := by
      rw [herror, hlaw]
    have hrun : runPidLaw (consumePidReset s) = .next _ :=
      runPidLaw_eq_next.2 ⟨zeroPid s.cfg.num.num, q, 0, rfl, hlaw', rfl⟩
    exact ⟨_, (execPid_of_resetComputes hrst hc).trans hrun, rfl, rfl⟩

/-- Settles O24: with no reset pending PID is the law, whose two other outcomes are these. -/
theorem pidStopsWithoutAFloor : Obligations.PidStopsWithoutAFloor := by
  intro s hrst
  have hlaw : exec .pid s = runPidLaw s := execPid_of_noReset hrst
  rw [hlaw]
  constructor
  · intro p hp hnone
    rw [runPidLaw_of_num rfl hp, hnone]
  · intro hother
    have hregs : s.pid.regsAs s.cfg.num = none :=
      Option.eq_none_iff_forall_ne_some.2 fun p hp => hother p (regsAs_eq_some hp)
    rw [runPidLaw, hregs]

/-- A finite datum in units. -/
theorem units_of_datum {x : Binary32} {neg : Bool} {m : Nat} (h : datum x = .fin neg m) :
    units x = some (signedMag neg m) := by
  unfold datum at h
  rw [units, h]

/-- Settles O25: the patterns are the model's own, and the gains' values are those of their data. -/
theorem gainPatternsHaveTheirExactValues : Obligations.GainPatternsHaveTheirExactValues := by
  refine ⟨⟨rfl, rfl, rfl, rfl, rfl⟩, ⟨?_, ?_, ?_⟩, ⟨rfl, rfl, rfl⟩⟩
  · rw [units_of_datum datum_kp]
    norm_num [signedMag]
  · rw [units_of_datum datum_ki]
    norm_num [signedMag]
  · rw [units_of_datum datum_kd]
    norm_num [signedMag]

end Sys2Proof.Machine
end

section
/-! Ownership of the output ports and of the configuration (20_memory.md R63, R72), and the step (00_scope.md
section 1). -/

namespace Sys2Proof.Machine

open Sys2Proof.Certificates

/-! ### Output ports -/

/-- No operation of an iteration but PWM and OUT writes an output port (R63). -/
theorem exec_out_eq {i : Instr} {s t : State} (hop : elementaryOp i) (hpwm : i.mnemonic ≠ .PWM)
    (hout : i.mnemonic ≠ .OUT) (h : exec i s = .next t) : t.out = s.out := by
  obtain ⟨hreset, hiter⟩ := hop
  cases i with
  | reset => exact absurd rfl hreset
  | iter inp => exact absurd rfl hiter
  | pwm => exact absurd rfl hpwm
  | out => exact absurd rfl hout
  | phase =>
    obtain ⟨-, -, rfl⟩ := execPhase_eq_next.1 h
    rfl
  | measured =>
    obtain ⟨-, rfl⟩ := execMeasured_eq_next.1 h
    rfl
  | pid => rw [execPid_frame h]
  | tach g =>
    obtain ⟨-, rfl⟩ := execTach_eq_next.1 h
    simp only [tachCall_frame]
  | selOff | selRamp | selClosed | selOpen =>
    cases h
    simp only [selectMode_frame]
  | sample | desired | selNone | selUnrec w | srcOff | ramp | quad b | direct b | tachSkip =>
    cases h
    rfl

theorem eq_pwm_of_mnemonic {i : Instr} (h : i.mnemonic = .PWM) : i = .pwm := by
  cases i with
  | pwm => rfl
  | _ => cases h

theorem eq_out_of_mnemonic {i : Instr} (h : i.mnemonic = .OUT) : i = .out := by
  cases i with
  | out => rfl
  | _ => cases h

/-- Settles O48: PWM writes PWM_PIN alone, OUT keeps it, and no other operation writes a port. -/
theorem onlyPwmAndOutWriteThePorts : Obligations.OnlyPwmAndOutWriteThePorts := by
  rintro i s t p hop h ⟨hpin, hdisplay⟩
  by_cases hpwm : i.mnemonic = .PWM
  · have hp : p ≠ .pwmPin := fun hp => hpin hp hpwm
    obtain rfl := eq_pwm_of_mnemonic hpwm
    cases (execPwm_eq s).symm.trans h
    exact readOut_writeOut_other s.cfg s.out hp _
  · by_cases hout : i.mnemonic = .OUT
    · obtain rfl : p = .pwmPin := not_not.1 fun hp => hdisplay hp hout
      obtain rfl := eq_out_of_mnemonic hout
      cases (execOut_eq s).symm.trans h
      rfl
    · rw [exec_out_eq hop hpwm hout h]

/-! ### The configuration -/

/-- Every operation leaves the configuration alone (R72). -/
theorem exec_keeps_cfg (c : Cfg) (op : Instr) : Keeps (fun s => s.cfg = c) (exec op) := by
  intro s t hs h
  cases op with
  | iter i => rw [iter_cfg h, hs]
  | phase =>
    obtain ⟨-, -, rfl⟩ := execPhase_eq_next.1 h
    exact hs
  | measured =>
    obtain ⟨-, rfl⟩ := execMeasured_eq_next.1 h
    exact hs
  | pid =>
    rw [execPid_frame h]
    exact hs
  | tach g =>
    obtain ⟨-, rfl⟩ := execTach_eq_next.1 h
    simpa only [tachCall_frame] using hs
  | selOff | selRamp | selClosed | selOpen =>
    cases h
    simpa only [selectMode_frame] using hs
  | out =>
    cases (execOut_eq s).symm.trans h
    exact hs
  | reset | sample | desired | pwm | selNone | selUnrec w | srcOff | ramp | quad b | direct b | tachSkip =>
    cases h
    exact hs

/-- Settles O49: fetching does not look at the configuration, and every operation keeps it. -/
theorem configurationIsFixedForTheRun : Obligations.ConfigurationIsFixedForTheRun := by
  intro s t h
  exact keeps_step (P := fun u => u.cfg = s.cfg) (fun _ _ hs => hs) (fun _ _ hs => hs) (exec_keeps_cfg s.cfg) s t rfl h

/-- Settles O53: each constraint is a conjunct of the check, which a step makes first; this hardware passes it. -/
theorem badConfigurationIsRefused : Obligations.BadConfigurationIsRefused := by
  refine ⟨fun s hbad => ?_, rfl, hardware_wf⟩
  refine withCfg_of_not_wf (Bool.eq_false_iff.2 fun hw => ?_) _
  obtain ⟨hclock, hrps, hcnt, hfreq, -⟩ := (cfg_wf_iff s.cfg).1 hw
  obtain ⟨hunit, hwindows, hsteps, hduty, hspeed⟩ := wf_literals hw
  omega

/-! ### The step -/

/-- On a legal configuration a step runs the fetched instruction on the fetched state. -/
theorem step_of_fetch {s : State} {i : Instr} (hw : s.cfg.wf = true) (hfetch : (fetch s).1 = .ok i) :
    step s = exec i (fetch s).2 := by
  rw [step, withCfg_of_wf hw, hfetch]

/-- The fetch with a stimulus given: it is presented and consumed. -/
theorem fetch_cons {s : State} {x : Stimulus} {rest : List Stimulus} (h : s.feed = x :: rest) :
    fetch s = (presented x, s.setFeed rest) := by
  simp only [fetch, h]

/-- The fetch with none given: free values are drawn (assumption 1). -/
theorem fetch_nil {s : State} (h : s.feed = []) :
    fetch s = (presented (freeStimulus s.draws), s.setDraws (s.draws + 1)) := by
  simp only [fetch, h]

/-- A bench word at the iteration's slot is ITER over its fields (R91). -/
theorem decode_iteration (iw : IterationWord) : decode ⟨.iteration, iw⟩ = .ok (.iter (unpackIw iw)) :=
  if_pos iw.isLt

/-- A table word presents what the decoder reads from it (assumption 9). -/
theorem presented_tableStimulus (nbits w : Nat) : presented (tableStimulus nbits w) = decode (tableWord nbits w) := by
  unfold tableStimulus
  split_ifs with h
  · have hword : tableWord nbits w = ⟨.iteration, BitVec.ofNat 88 w⟩ := by rw [tableWord, tableSlot, if_pos h]
    rw [hword, decode_iteration]
    rfl
  · rfl

theorem decode_of_decodeTableWord {nbits w : Nat} {i : Instr} (h : decodeTableWord nbits w = some i) :
    decode (tableWord nbits w) = .ok i := by
  unfold decodeTableWord at h
  split at h
  · rename_i j hj
    rw [hj, Option.some.inj h]
  · cases h

/-- Settles O54: the fetch by what the feed holds, and a table word as the feed's first stimulus. -/
theorem stepRunsTheDecodedInstruction : Obligations.StepRunsTheDecodedInstruction := by
  constructor
  · intro s i hw hfetch
    refine ⟨step_of_fetch hw hfetch, fun rst inp rest hfeed => ?_, fun e rest hfeed => ?_, fun hfeed => ?_⟩
    · rw [fetch_cons hfeed] at hfetch ⊢
      exact ⟨rfl, (Except.ok.inj hfetch).symm⟩
    · rw [fetch_cons hfeed] at hfetch ⊢
      refine ⟨rfl, hfetch, ?_⟩
      rintro iw rfl
      exact Except.ok.inj (hfetch.symm.trans (decode_iteration iw))
    · rw [fetch_nil hfeed] at hfetch ⊢
      exact ⟨rfl, (Except.ok.inj hfetch).symm⟩
  · intro s nbits w i hw hword
    have hfetch := fetch_cons (s := s.withFetchWord nbits w) rfl
    rw [presented_tableStimulus, decode_of_decodeTableWord hword] at hfetch
    rw [step_of_fetch (s := s.withFetchWord nbits w) (i := i) hw (congrArg Prod.fst hfetch), hfetch]
    rfl

end Sys2Proof.Machine
end

section
/-! Rounding in binary32 (43_pid.md R171): the conversions are exact on their ranges, and a sum, a difference and a
product are each the datum nearest the exact value, the one with the even pattern where two are equally near. -/

namespace Sys2Proof

open Machine Sys2Proof.Certificates

/-! ### Finite data -/

/-- A datum's units, read back. -/
theorem datum_of_units {x : Binary32} {v : Int} (h : units x = some v) :
    ∃ neg m, datum x = .fin neg m ∧ v = signedMag neg m := by
  unfold units at h
  unfold datum
  cases hx : floatVal binary32Format x.toNat with
  | nan => simp [hx] at h
  | inf neg => simp [hx] at h
  | fin neg m =>
    simp only [hx, Option.some.injEq] at h
    exact ⟨neg, m, rfl, h.symm⟩

/-- The magnitude of a finite datum is representable. -/
theorem rep_of_datum {x : Binary32} {neg : Bool} {m : Nat} (h : datum x = .fin neg m) : Rep m := by
  have hfrac : x.toNat % 2 ^ 23 < 2 ^ 23 := Nat.mod_lt _ (by norm_num)
  unfold datum floatVal at h
  dsimp only at h
  split at h
  · split at h <;> cases h
  · split at h <;> cases h
    · exact ⟨_, 0, (mul_one _).symm, hfrac.trans (by norm_num), Or.inl rfl⟩
    · exact ⟨_, _, rfl, show 2 ^ 23 + x.toNat % 2 ^ 23 < 2 ^ 24 by omega, Or.inr (Nat.le_add_right _ _)⟩

/-! ### The nearest magnitude -/

/-- Where another integer is equally near, the rounded one is even. -/
theorem roundHalfEven_even_of_tie {m D n : Nat} (hD : 0 < D) (hn : n ≠ roundHalfEven m D)
    (htie : |(roundHalfEven m D * D : Int) - m| = |(n * D : Int) - m|) : roundHalfEven m D % 2 = 0 := by
  have hd : (D : Int) * (m / D : Nat) + (m % D : Nat) = m := by exact_mod_cast Nat.div_add_mod m D
  have hr : m % D < D := Nat.mod_lt m hD
  -- two multiples of `D` are `D` apart, so the nearer of two equally near ones is half of `D` away
  have hfar : (D : Int) ≤ 2 * |(roundHalfEven m D * D : Int) - m| := by
    have hapart : (D : Int) ≤ |(n * D : Int) - roundHalfEven m D * D| := by
      rw [← sub_mul, abs_mul, abs_of_nonneg (Int.natCast_nonneg D)]
      have hone : 1 ≤ |(n : Int) - roundHalfEven m D| := Int.one_le_abs (sub_ne_zero.2 (by exact_mod_cast hn))
      nlinarith
    have htriangle := abs_sub_le (n * D : Int) m (roundHalfEven m D * D)
    rw [abs_sub_comm (m : Int)] at htriangle
    linarith
  unfold roundHalfEven at hfar ⊢
  split at hfar
  · rename_i hup
    have hdist : ((m / D + 1 : Nat) * D : Int) - m = (D : Int) - (m % D : Nat) := by
      push_cast at hd ⊢
      linarith
    rw [hdist, abs_of_nonneg (by omega)] at hfar
    rw [if_pos hup]
    omega
  · rename_i hdown
    have hdist : ((m / D : Nat) * D : Int) - m = -((m % D : Nat) : Int) := by
      push_cast at hd ⊢
      linarith
    rw [hdist, abs_neg, abs_of_nonneg (Int.natCast_nonneg _)] at hfar
    rw [if_neg hdown]
    omega

/-- The magnitude in the unit it was rounded from: a multiple of the grid of the dropped bits. -/
theorem roundMag_mul_two_pow (m k : Nat) :
    roundMag binary32Format m k * 2 ^ k =
      roundHalfEven m (2 ^ dropBits binary32Format m k) * 2 ^ dropBits binary32Format m k := by
  have hk : k ≤ dropBits binary32Format m k := le_max_left _ _
  rw [roundMag, mul_assoc, ← pow_add, Nat.sub_add_cancel hk]

/-- Where bits above the unit are dropped, the exact value is at least `2^23` grid steps. -/
theorem two_pow_le_of_drop {m k : Nat} (h : k < dropBits binary32Format m k) :
    2 ^ 23 * 2 ^ dropBits binary32Format m k ≤ m := by
  have hd : dropBits binary32Format m k = max k (m.log2 - 23) := rfl
  have hm : m ≠ 0 := by
    rintro rfl
    simp at hd
    omega
  rw [← pow_add]
  exact (Nat.le_log2 hm).1 (by omega)

/-- A representable magnitude lies on the rounding grid or below the first of its `2^23` steps. -/
theorem Rep.onGrid_or_lt {X : Nat} (hX : Rep X) (m k : Nat) :
    (∃ n, X * 2 ^ k = n * 2 ^ dropBits binary32Format m k) ∨
      (k < dropBits binary32Format m k ∧ X * 2 ^ k < 2 ^ 23 * 2 ^ dropBits binary32Format m k) := by
  obtain ⟨q, e, rfl, hq, -⟩ := hX
  have hk : k ≤ dropBits binary32Format m k := le_max_left _ _
  generalize dropBits binary32Format m k = d at hk
  rcases Nat.lt_or_ge (e + k) d with hbelow | hon
  · right
    have h24 : q * 2 ^ e * 2 ^ k < 2 ^ (24 + (e + k)) := by
      rw [mul_assoc, ← pow_add, pow_add 2 24]
      exact Nat.mul_lt_mul_of_pos_right hq (Nat.two_pow_pos _)
    refine ⟨by omega, h24.trans_le ?_⟩
    rw [← pow_add]
    exact Nat.pow_le_pow_right (by norm_num) (by omega)
  · left
    refine ⟨q * 2 ^ (e + k - d), ?_⟩
    rw [mul_assoc, mul_assoc, ← pow_add, ← pow_add, Nat.sub_add_cancel hon]

/-- No representable magnitude is nearer than the rounded one; one that is equally near, and another, is on the grid, so
the rounded multiple of the grid is even. -/
theorem roundMag_nearest {X : Nat} (hX : Rep X) (m k : Nat) :
    |(roundMag binary32Format m k * 2 ^ k : Int) - m| ≤ |(X * 2 ^ k : Int) - m| ∧
      (X ≠ roundMag binary32Format m k →
        |(roundMag binary32Format m k * 2 ^ k : Int) - m| = |(X * 2 ^ k : Int) - m| →
        roundHalfEven m (2 ^ dropBits binary32Format m k) % 2 = 0) := by
  have hround := congrArg (Nat.cast : Nat → Int) (roundMag_mul_two_pow m k)
  have hpos := Nat.two_pow_pos (dropBits binary32Format m k)
  have hnearest := roundHalfEven_nearest (m := m) hpos
  rcases hX.onGrid_or_lt m k with ⟨n, hn⟩ | ⟨hdrop, hlt⟩
  · have hn' := congrArg (Nat.cast : Nat → Int) hn
    push_cast at hround hn' hnearest
    rw [hround, hn']
    refine ⟨hnearest n, fun hne htie => roundHalfEven_even_of_tie hpos ?_ (by push_cast; exact htie)⟩
    rintro rfl
    have heq : X * 2 ^ k = roundMag binary32Format m k * 2 ^ k := hn.trans (roundMag_mul_two_pow m k).symm
    exact hne (Nat.eq_of_mul_eq_mul_right (Nat.two_pow_pos k) heq)
  · have hstart := two_pow_le_of_drop hdrop
    have hcloser : |(roundMag binary32Format m k * 2 ^ k : Int) - m| < |(X * 2 ^ k : Int) - m| := by
      have hgrid := hnearest (2 ^ 23)
      push_cast at hround hgrid
      rw [hround]
      refine hgrid.trans_lt ?_
      have hstart' : (2 ^ 23 * 2 ^ dropBits binary32Format m k : Int) ≤ m := by exact_mod_cast hstart
      have hlt' : (X * 2 ^ k : Int) < 2 ^ 23 * 2 ^ dropBits binary32Format m k := by exact_mod_cast hlt
      rw [abs_of_nonpos (by linarith), abs_of_neg (by linarith)]
      linarith
    exact ⟨hcloser.le, fun _ htie => absurd htie hcloser.ne⟩

/-! ### The pattern of a rounded magnitude -/

/-- A normalised magnitude past the largest finite datum packs to an infinity. -/
theorem packMag_of_overflow {q e : Nat} (neg : Bool) (h1 : 2 ^ 23 ≤ q) (h2 : q < 2 ^ 24) (he : 254 ≤ e) :
    packMag binary32Format neg (q * 2 ^ e) = infPattern binary32Format neg := by
  have hlog : (q * 2 ^ e).log2 = 23 + e := Rep.log2 h1 h2
  have hbig : ¬q * 2 ^ e < 2 ^ binary32Format.fracBits :=
    Nat.not_lt.2 (h1.trans (Nat.le_mul_of_pos_right q (Nat.two_pow_pos e)))
  have hexp : 2 ^ binary32Format.expBits - 1 ≤ 23 + e - binary32Format.fracBits + 1 := by
    change 2 ^ 8 - 1 ≤ 23 + e - 23 + 1
    omega
  rw [packMag, if_neg hbig]
  simp only [hlog]
  rw [if_pos hexp]

theorem datum_infPattern (neg : Bool) : datum (BitVec.ofNat 32 (infPattern binary32Format neg)) = .inf neg := by
  cases neg <;> decide +kernel

/-- A rounded pattern is the datum of the rounded magnitude or an infinity. -/
theorem datum_roundPack (neg : Bool) (m k : Nat) :
    (datum (BitVec.ofNat 32 (roundPack binary32Format neg m k)) = .fin neg (roundMag binary32Format m k) ∧
      roundMag binary32Format m k < 2 ^ 277) ∨
    datum (BitVec.ofNat 32 (roundPack binary32Format neg m k)) = .inf neg := by
  have hrep := roundMag_rep m k
  rcases Nat.lt_or_ge (roundMag binary32Format m k) (2 ^ 277) with hlt | hge
  · obtain ⟨hfits, hval⟩ := packMag_spec (neg := neg) hrep hlt
    refine Or.inl ⟨?_, hlt⟩
    rw [datum, roundPack, BitVec.toNat_ofNat, Nat.mod_eq_of_lt (by exact hfits)]
    exact hval
  · right
    obtain ⟨q, e, hqe, hq, hn⟩ := hrep
    have he : 254 ≤ e := by
      have hlt : 2 ^ 277 < 2 ^ (24 + e) := by
        rw [pow_add]
        exact (hge.trans_eq hqe).trans_lt (Nat.mul_lt_mul_of_pos_right hq (Nat.two_pow_pos e))
      have := (Nat.pow_lt_pow_iff_right (by norm_num)).1 hlt
      omega
    rw [roundPack, hqe, packMag_of_overflow neg (by omega) hq he]
    exact datum_infPattern neg

/-- The pattern of a normalised magnitude short of overflow has the parity of its significand. -/
theorem packMag_mod_two {q e : Nat} (neg : Bool) (hq : q < 2 ^ 24) (hn : e = 0 ∨ 2 ^ 23 ≤ q) (he : e < 254) :
    packMag binary32Format neg (q * 2 ^ e) % 2 = q % 2 := by
  have hsign : signPart binary32Format neg % 2 = 0 := by cases neg <;> rfl
  by_cases hsub : q * 2 ^ e < 2 ^ 23
  · obtain rfl : e = 0 := by
      rcases hn with h | h
      · exact h
      · exact absurd hsub (Nat.not_lt.2 (h.trans (Nat.le_mul_of_pos_right q (Nat.two_pow_pos e))))
    rw [packMag, if_pos (show q * 2 ^ 0 < 2 ^ binary32Format.fracBits from hsub)]
    omega
  · have hq23 : 2 ^ 23 ≤ q := by
      rcases hn with rfl | h
      · simpa using hsub
      · exact h
    have hexp : ¬2 ^ binary32Format.expBits - 1 ≤ 23 + e - binary32Format.fracBits + 1 := by
      change ¬2 ^ 8 - 1 ≤ 23 + e - 23 + 1
      omega
    have hshift : 23 + e - binary32Format.fracBits + 1 - 1 = e := by
      change 23 + e - 23 + 1 - 1 = e
      omega
    rw [packMag, if_neg (show ¬q * 2 ^ e < 2 ^ binary32Format.fracBits from hsub)]
    simp only [Rep.log2 hq23 hq]
    rw [if_neg hexp, hshift, Nat.mul_div_cancel _ (Nat.two_pow_pos e)]
    generalize 23 + e - binary32Format.fracBits + 1 = x
    change (_ + x * 2 ^ 23 + (q - 2 ^ 23)) % 2 = q % 2
    omega

/-- Rounding leaves at most the 24 bits of a significand, or the power of two above them. -/
theorem roundHalfEven_drop_le (m k : Nat) : roundHalfEven m (2 ^ dropBits binary32Format m k) ≤ 2 ^ 24 := by
  have hd : m.log2 - 23 ≤ dropBits binary32Format m k := le_max_right _ _
  apply roundHalfEven_le (Nat.two_pow_pos _)
  rcases Nat.eq_zero_or_pos m with rfl | hm
  · exact Nat.zero_le _
  · rw [← pow_add]
    exact ((Nat.log2_lt hm.ne').1 (by omega)).le

/-- A magnitude rounded to an even multiple of the grid has an even pattern. -/
theorem roundPack_even {m k : Nat} (neg : Bool) (hfin : roundMag binary32Format m k < 2 ^ 277)
    (heven : roundHalfEven m (2 ^ dropBits binary32Format m k) % 2 = 0) :
    roundPack binary32Format neg m k % 2 = 0 := by
  have hle := roundHalfEven_drop_le m k
  have hnorm : dropBits binary32Format m k - k = 0 ∨ 2 ^ 23 ≤ roundHalfEven m (2 ^ dropBits binary32Format m k) := by
    rcases Nat.lt_or_ge k (dropBits binary32Format m k) with hdrop | hnone
    · exact Or.inr (le_roundHalfEven (Nat.two_pow_pos _) (two_pow_le_of_drop hdrop))
    · exact Or.inl (Nat.sub_eq_zero_of_le hnone)
  rw [roundPack]
  unfold roundMag at hfin ⊢
  generalize roundHalfEven m (2 ^ dropBits binary32Format m k) = r at *
  generalize dropBits binary32Format m k - k = g at *
  have hexp : ∀ q e, 2 ^ 23 ≤ q → q * 2 ^ e < 2 ^ 277 → e < 254 := by
    intro q e hq hlt
    have hpow : 2 ^ (23 + e) < 2 ^ 277 := by
      rw [pow_add]
      exact (Nat.mul_le_mul_right _ hq).trans_lt hlt
    have := (Nat.pow_lt_pow_iff_right (by norm_num)).1 hpow
    omega
  rcases hle.lt_or_eq with hlt | rfl
  · have hg : g < 254 := by
      rcases hnorm with rfl | h
      · norm_num
      · exact hexp r g h hfin
    rw [packMag_mod_two neg hlt hnorm hg, heven]
  · have hpow : 2 ^ 24 * 2 ^ g = 2 ^ 23 * 2 ^ (g + 1) := by ring
    rw [hpow] at hfin ⊢
    rw [packMag_mod_two neg (by norm_num) (Or.inr le_rfl) (hexp _ _ le_rfl hfin)]
    norm_num

/-! ### Signed values -/

theorem signedMag_zero (neg : Bool) : signedMag neg 0 = 0 := by cases neg <;> rfl

/-- Two values of one sign are as far apart as their magnitudes. -/
theorem abs_signedMag_sub_same (neg : Bool) (a m k : Nat) :
    |signedMag neg a * 2 ^ k - signedMag neg m| = |(a * 2 ^ k : Int) - m| := by
  cases neg
  · rfl
  · have hneg : signedMag true a * 2 ^ k - signedMag true m = -((a * 2 ^ k : Int) - m) := by
      simp only [signedMag, if_true]
      ring
    rw [hneg, abs_neg]

/-- Two values of different signs are as far apart as their magnitudes together. -/
theorem abs_signedMag_sub_other {s neg : Bool} (h : s ≠ neg) (a m k : Nat) :
    |signedMag s a * 2 ^ k - signedMag neg m| = (a * 2 ^ k : Int) + m := by
  have hnonneg : (0 : Int) ≤ (a * 2 ^ k : Int) + m := by positivity
  cases s <;> cases neg
  · exact absurd rfl h
  · rw [← abs_of_nonneg hnonneg]
    simp [signedMag]
  · have hneg : signedMag true a * 2 ^ k - signedMag false m = -((a * 2 ^ k : Int) + m) := by
      simp only [signedMag, if_true, Bool.false_eq_true, if_false]
      ring
    rw [hneg, abs_neg, abs_of_nonneg hnonneg]
  · exact absurd rfl h

/-- A rounded pattern that is finite is the datum of the rounded magnitude. -/
theorem units_roundPack {neg : Bool} {m k : Nat} {v : Int}
    (h : units (BitVec.ofNat 32 (roundPack binary32Format neg m k)) = some v) :
    v = signedMag neg (roundMag binary32Format m k) ∧ roundMag binary32Format m k < 2 ^ 277 := by
  rcases datum_roundPack neg m k with ⟨hfin, hlt⟩ | hinf
  · rw [units_of_datum hfin] at h
    exact ⟨(Option.some.inj h).symm, hlt⟩
  · obtain ⟨s, n, hd, -⟩ := datum_of_units h
    cases hinf.symm.trans hd

/-- A rounded pattern that is finite is the datum nearest the exact signed value, and even where another one is equally
near: a datum of the other sign is never nearer than 0 is. -/
theorem roundPack_nearest {neg : Bool} {m k : Nat} {r x : Binary32} {vr vx : Int}
    (hr : r = BitVec.ofNat 32 (roundPack binary32Format neg m k)) (hvr : units r = some vr) (hvx : units x = some vx) :
    |vr * 2 ^ k - signedMag neg m| ≤ |vx * 2 ^ k - signedMag neg m| ∧
      (vx ≠ vr → |vr * 2 ^ k - signedMag neg m| = |vx * 2 ^ k - signedMag neg m| → r.toNat % 2 = 0) := by
  subst hr
  obtain ⟨rfl, hlt⟩ := units_roundPack hvr
  obtain ⟨s, n, hx, rfl⟩ := datum_of_units hvx
  have heven : roundHalfEven m (2 ^ dropBits binary32Format m k) % 2 = 0 →
      (BitVec.ofNat 32 (roundPack binary32Format neg m k)).toNat % 2 = 0 := fun h => by
    rw [BitVec.toNat_ofNat, Nat.mod_mod_of_dvd _ (by norm_num), roundPack_even neg hlt h]
  obtain ⟨hle, htie⟩ := roundMag_nearest (rep_of_datum hx) m k
  rw [abs_signedMag_sub_same]
  by_cases hsign : s = neg
  · subst hsign
    rw [abs_signedMag_sub_same]
    exact ⟨hle, fun hne heq => heven (htie (fun hn => hne (by rw [hn])) heq)⟩
  · rw [abs_signedMag_sub_other hsign]
    obtain ⟨hzero, hzerotie⟩ := roundMag_nearest rep_zero m k
    have hm : |((0 : Nat) * 2 ^ k : Int) - m| = m := by simp
    rw [hm] at hzero hzerotie
    have hn : (0 : Int) ≤ n * 2 ^ k := by positivity
    refine ⟨by linarith, fun hne heq => heven (hzerotie (fun hR => hne ?_) (by linarith))⟩
    have hn0 : (n * 2 ^ k : Int) = 0 := by linarith
    have : n = 0 := by
      rcases Nat.mul_eq_zero.1 (show n * 2 ^ k = 0 by exact_mod_cast hn0) with h | h
      · exact h
      · exact absurd h (Nat.two_pow_pos k).ne'
    rw [this, ← hR, signedMag_zero, signedMag_zero]

/-! ### The operations -/

theorem signedMag_decide_natAbs (z : Int) : signedMag (decide (z < 0)) z.natAbs = z := by
  unfold signedMag
  split_ifs with h
  · have := of_decide_eq_true h
    omega
  · have := of_decide_eq_false (Bool.eq_false_iff.2 h)
    omega

theorem add_eq_roundPack {a b : Binary32} {va vb : Int} (ha : units a = some va) (hb : units b = some vb) :
    ∃ neg m, binary32.add a b = BitVec.ofNat 32 (roundPack binary32Format neg m 0) ∧ signedMag neg m = va + vb := by
  obtain ⟨s, m, hda, rfl⟩ := datum_of_units ha
  obtain ⟨t, n, hdb, rfl⟩ := datum_of_units hb
  have hadd : binary32.add a b = BitVec.ofNat 32 (floatAdd binary32Format a.toNat b.toNat) := rfl
  unfold datum at hda hdb
  rw [hadd, floatAdd, hda, hdb]
  dsimp only
  by_cases hz : signedMag s m + signedMag t n = 0
  · rw [if_pos hz, hz]
    exact ⟨s && t, 0, rfl, signedMag_zero _⟩
  · rw [if_neg hz]
    exact ⟨_, _, rfl, signedMag_decide_natAbs _⟩

/-- A finite sum is the datum nearest the exact one (R171). -/
theorem add_nearest {a b x : Binary32} {va vb vx vr : Int} (ha : units a = some va) (hb : units b = some vb)
    (hx : units x = some vx) (hr : units (binary32.add a b) = some vr) :
    |vr - (va + vb)| ≤ |vx - (va + vb)| ∧
      (vx ≠ vr → |vr - (va + vb)| = |vx - (va + vb)| → (binary32.add a b).toNat % 2 = 0) := by
  obtain ⟨neg, m, hadd, hm⟩ := add_eq_roundPack ha hb
  have h := roundPack_nearest hadd hr hx
  rwa [hm, pow_zero, mul_one, mul_one] at h

/-- Negation of a finite datum, in units. -/
theorem units_neg {b : Binary32} {vb : Int} (hb : units b = some vb) :
    units (BitVec.ofNat 32 (floatNeg binary32Format b.toNat)) = some (-vb) := by
  obtain ⟨t, n, hd, rfl⟩ := datum_of_units hb
  rw [units_of_datum (datum_neg hd)]
  cases t <;> simp [signedMag]

/-- Settles O27: a difference is the sum with the negated datum. -/
theorem sumsRoundToNearestEven : Obligations.SumsRoundToNearestEven := by
  intro a b x va vb vx vr ha hb hx
  refine ⟨add_nearest ha hb hx, fun hr => ?_⟩
  rw [sub_eq_add_neg] at hr ⊢
  rw [show va - vb = va + -vb from Int.sub_eq_add_neg]
  exact add_nearest ha (units_neg hb) hx hr

theorem signedMag_mul (s t : Bool) (m n : Nat) : signedMag (s != t) (m * n) = signedMag s m * signedMag t n := by
  cases s <;> cases t <;> simp [signedMag]

theorem mul_eq_roundPack {a b : Binary32} {va vb : Int} (ha : units a = some va) (hb : units b = some vb) :
    ∃ neg m, binary32.mul a b = BitVec.ofNat 32 (roundPack binary32Format neg m 149) ∧ signedMag neg m = va * vb := by
  obtain ⟨s, m, hda, rfl⟩ := datum_of_units ha
  obtain ⟨t, n, hdb, rfl⟩ := datum_of_units hb
  have hmul : binary32.mul a b = BitVec.ofNat 32 (floatMul binary32Format a.toNat b.toNat) := rfl
  unfold datum at hda hdb
  rw [hmul, floatMul, hda, hdb]
  exact ⟨s != t, m * n, rfl, signedMag_mul s t m n⟩

/-- Settles O28: the exact product in squared units is rounded once to the unit. -/
theorem productsRoundToNearestEven : Obligations.ProductsRoundToNearestEven := by
  intro a b x va vb vx vr ha hb hx hr
  obtain ⟨neg, m, hmul, hm⟩ := mul_eq_roundPack ha hb
  rw [← hm]
  exact roundPack_nearest hmul hr hx

/-! ### The conversions -/

theorem signedMag_mul_natCast (neg : Bool) (m n : Nat) : signedMag neg (m * n) = signedMag neg m * n := by
  cases neg <;> simp [signedMag]

/-- Settles O26: `int_to_num` rounds nothing away on its range, and `num_floor` is the integer quotient by the units of
1. -/
theorem conversionsAreExact : Obligations.ConversionsAreExact := by
  constructor
  · intro k hlo hhi
    rw [units_of_datum (ofInt_spec (by omega)), signedMag_mul_natCast, signedMag_decide_natAbs, Nat.cast_pow,
      Nat.cast_ofNat]
  · intro x v hx _ _
    obtain ⟨s, m, hd, rfl⟩ := datum_of_units hx
    refine ⟨signedMag s m / 2 ^ 149, ?_, Int.ediv_mul_le _ (by norm_num), Int.lt_ediv_add_one_mul_self _ (by norm_num)⟩
    have hfloor : binary32.floor x = floatFloor binary32Format x.toNat := rfl
    unfold datum at hd
    rw [hfloor, floatFloor, hd]
    rfl

end Sys2Proof
end
